-- ==== Sys2Proof/Word.lean ====
section
/-!
DEFINITION. The sizes of the instruction word and its fields (`00_scope.md` R6, R8). The value of a register or a
cell is no bit vector: it is an `Int`, kept within `XLEN`-bit two's complement by the operations that make new values
(R9, R131; DESIGN CHOICE, log entry 3).
-/

namespace Sys2Proof

/-- A byte is 8 bits (R8). -/
abbrev Byte := BitVec 8

/-- The 32-bit instruction word, bit 0 the least significant (R8, R60). -/
abbrev Word := BitVec 32

/-- The opcode field `a`, 6 bits (R62). -/
abbrev Opcode := BitVec 6

/-- A 5-bit field: `b` of every instruction and `c` of the narrow format (R62, R64). -/
abbrev NarrowField := BitVec 5

/-- A 13-bit field: `c` of the wide format (R63), and the width at which the decoder gives out any `c` (R92). -/
abbrev WideField := BitVec 13

end Sys2Proof
end

