-- ==== Sys2Proof/Config.lean ====
section
/-!
DEFINITION. The implementation parameters the spec takes as arguments (`00_scope.md` R6, `10_state.md` R22).
The machine leaves no value free at run time (`41_sequencer.md` R108), so nothing here is opaque.
-/

namespace Sys2Proof.Config

/-- `CW_UNREC`, the width of `c` for an opcode that is none of the four: 13, or 5 by the alternative that
decision D5 leaves to the model (R6, R69). -/
inductive UnrecWidth where
  | bits13
  | bits5
  deriving DecidableEq, Repr

/-- The number of bits of `CW_UNREC`. -/
def UnrecWidth.bits : UnrecWidth → Nat
  | .bits13 => 13
  | .bits5 => 5

/-- The parameters that are fixed for a run (R6): the width of a value, the number of data cells, the width
of `pc` (`none`: unbounded, R27), and `CW_UNREC`. -/
structure Params where
  xlen : Nat
  capacity : Nat
  pcw : Option Nat
  cwUnrec : UnrecWidth
  deriving DecidableEq, Repr

/-- The defaults of R6: `XLEN` 32, `CAPACITY` 1024, `pc` unbounded, `CW_UNREC` 13. -/
def defaultParams : Params := { xlen := 32, capacity := 1024, pcw := none, cwUnrec := .bits13 }

/-- The legal range of R6 and decision D1: `XLEN` is 14 or more; any `CAPACITY` is legal (D9). -/
def Params.legal (p : Params) : Bool := decide (14 ≤ p.xlen)

/-- The host's duty of R27: a stream of `len` bytes fits a `pc` of `PCW` bits when `len + 3 < 2^PCW`. -/
def Params.streamFits (p : Params) (len : Nat) : Bool :=
  match p.pcw with
  | none => true
  | some w => decide (len + 3 < 2 ^ w)

end Sys2Proof.Config
end

