-- ==== Sys2Proof/Syntax.lean ====
section
/-!
DEFINITION. The instructions, one constructor per row of `spec/opcode_table.json` (`30_encoding.md` R67, R68, R76).
-/

namespace Sys2Proof

/-- The five rows of the opcode table. The four operations carry the two fields of their format; an
unrecognised opcode carries all three decoded fields, none of which its execution uses (R104). -/
inductive Instr where
  /-- `LOAD_CONST b, c`: destination register, 13-bit constant (R120). -/
  | loadConst (b : NarrowField) (c : WideField)
  /-- `READ_MEM b, c`: destination register, 5-bit cell address (R121). -/
  | readMem (b : NarrowField) (c : NarrowField)
  /-- `WRITE_MEM b, c`: source register, 13-bit cell address (R122). -/
  | writeMem (b : NarrowField) (c : WideField)
  /-- `UNARY_MINUS b, c`: destination register, source register (R130). -/
  | unaryMinus (b : NarrowField) (c : NarrowField)
  /-- Any of the other 60 opcodes, with its decoded `b` and `c` (R68, R86). -/
  | unrecognized (a : Opcode) (b : NarrowField) (c : WideField)
  deriving DecidableEq, Repr

/-- The five variants of `classify` (R90). -/
inductive Variant where
  | loadConst
  | readMem
  | writeMem
  | unaryMinus
  | unrecognized
  deriving DecidableEq, Repr

/-- The three fields of a decoded word, a narrow `c` zero-extended to 13 bits (R84, R92). -/
structure Fields where
  a : Opcode
  b : NarrowField
  c : WideField
  deriving DecidableEq, Repr

end Sys2Proof
end

