-- ==== Sys2Proof/WellFormed.lean ====
section
/-!
DEFINITION. Which instruction terms stand for a word. The field types already bound every operand
(`30_encoding.md` R62 to R64), so only the unrecognised form has something to check.
-/

namespace Sys2Proof

/-- The four recognised opcodes (R67). -/
def recognized (a : Opcode) : Bool := a == 7#6 || a == 49#6 || a == 51#6 || a == 55#6

/-- An unrecognised instruction has an opcode that is none of the four (R68) and a `c` that fits the
`CW_UNREC` bits it is decoded from (R69); every other term is well-formed. -/
def Instr.wellFormed (u : Config.UnrecWidth) : Instr → Bool
  | .loadConst _ _ => true
  | .readMem _ _ => true
  | .writeMem _ _ => true
  | .unaryMinus _ _ => true
  | .unrecognized a _ c => !recognized a && decide (c.toNat < 2 ^ u.bits)

end Sys2Proof
end

