-- ==== Sys2Proof/Decode.lean ====
section
/-!
DEFINITION. The instruction codec (`40_codec.md`): the layout once (R93), `decode` and `classify`, then `encode`,
and the two between bytes and `Instr`.
-/

namespace Sys2Proof

/-- Where each field starts in the word (`30_encoding.md` R62): `a | (b << 6) | (c << 11)`. -/
def bLow : Nat := 6

/-- The third field starts at bit 11 in both formats (R62). -/
def cLow : Nat := 11

/-- The width of `c` for an opcode (R80). -/
def cw (u : Config.UnrecWidth) (a : Opcode) : Nat :=
  if a = 7#6 ∨ a = 51#6 then 13
  else if a = 49#6 ∨ a = 55#6 then 5
  else u.bits

/-- The low `n` bits of a `c` value, zero-extended back to 13 bits: the masking of R81 and the narrow
slice of R84. -/
def keepLow (n : Nat) (c : WideField) : WideField := (c.setWidth n).setWidth 13

/-! ### Decoding -/

/-- The little-endian word of up to four bytes, a missing byte read as zero (R45, R61, R85). -/
def wordOf (bytes : List Byte) : Word :=
  (bytes.getD 3 0#8) ++ (bytes.getD 2 0#8) ++ (bytes.getD 1 0#8) ++ (bytes.getD 0 0#8)

/-- The three fields of a word: `w[5:0]`, `w[10:6]`, and `cw(a)` bits from bit 11; bits above are dropped
(R84, R70). -/
def unpack (u : Config.UnrecWidth) (w : Word) : Fields :=
  let a := w.extractLsb' 0 6
  { a := a
    b := w.extractLsb' bLow 5
    c := keepLow (cw u a) (w.extractLsb' cLow 13) }

/-- Why the decoder refuses its input: it admits at most 4 bytes (R85, decision D26). -/
inductive DecodeRefusal where
  | tooManyBytes (n : Nat)
  deriving DecidableEq, Repr

/-- `decode` (R84): total on 0 to 4 bytes (R86), refusing more by name (D26). -/
def decode (u : Config.UnrecWidth) (bytes : List Byte) : Except DecodeRefusal Fields :=
  if bytes.length ≤ 4 then .ok (unpack u (wordOf bytes)) else .error (.tooManyBytes bytes.length)

/-- `classify` (R90). -/
def classify (a : Opcode) : Variant :=
  if a = 7#6 then .loadConst
  else if a = 49#6 then .readMem
  else if a = 51#6 then .writeMem
  else if a = 55#6 then .unaryMinus
  else .unrecognized

/-- The instruction that decoded fields stand for, operands by format (R76, R90). -/
def Fields.toInstr (f : Fields) : Instr :=
  match classify f.a with
  | .loadConst => .loadConst f.b f.c
  | .readMem => .readMem f.b (f.c.setWidth 5)
  | .writeMem => .writeMem f.b f.c
  | .unaryMinus => .unaryMinus f.b (f.c.setWidth 5)
  | .unrecognized => .unrecognized f.a f.b f.c

/-- The instruction of a word. -/
def instrOfWord (u : Config.UnrecWidth) (w : Word) : Instr := (unpack u w).toInstr

/-- The instruction of 0 to 4 bytes; more are refused by name. -/
def decodeInstr (u : Config.UnrecWidth) (bytes : List Byte) : Except DecodeRefusal Instr :=
  (decode u bytes).map Fields.toInstr

/-! ### Encoding -/

/-- The four bytes of a word in stream order, byte 0 first (R61). -/
def bytesOf (w : Word) : List Byte :=
  [w.extractLsb' 0 8, w.extractLsb' 8 8, w.extractLsb' 16 8, w.extractLsb' 24 8]

/-- The packing formula on fields of port width, `c` first cut to the width its opcode gives it (R81, R92). -/
def pack (u : Config.UnrecWidth) (f : Fields) : Word :=
  f.a.setWidth 32 ||| (f.b.setWidth 32 <<< bLow) ||| ((keepLow (cw u f.a) f.c).setWidth 32 <<< cLow)

/-- Three integers reduced to the port widths by floor modulus (R81, R8, R92). -/
def reduce (a b c : Int) : Fields :=
  { a := BitVec.ofInt 6 a, b := BitVec.ofInt 5 b, c := BitVec.ofInt 13 c }

/-- `encode` (R81): any three integers, masked and never rejected (R82), the family chosen from the masked
opcode (R83). -/
def encode (u : Config.UnrecWidth) (a b c : Int) : List Byte := bytesOf (pack u (reduce a b c))

/-- The fields an instruction is packed from (R67, R76). -/
def Instr.fields : Instr → Fields
  | .loadConst b c => ⟨7#6, b, c⟩
  | .readMem b c => ⟨49#6, b, c.setWidth 13⟩
  | .writeMem b c => ⟨51#6, b, c⟩
  | .unaryMinus b c => ⟨55#6, b, c.setWidth 13⟩
  | .unrecognized a b c => ⟨a, b, c⟩

/-- The word of an instruction, unused bits 0 (R70). -/
def encodeWord (u : Config.UnrecWidth) (i : Instr) : Word := pack u i.fields

/-- The four bytes of an instruction. -/
def encodeInstr (u : Config.UnrecWidth) (i : Instr) : List Byte := bytesOf (encodeWord u i)

/-- A triple that fits its opcode's field widths: the "valid" of R87, for all 64 opcodes. -/
def validTriple (u : Config.UnrecWidth) (a b c : Int) : Bool :=
  decide (0 ≤ a ∧ a < 64 ∧ 0 ≤ b ∧ b < 32 ∧ 0 ≤ c ∧ c < 2 ^ cw u (BitVec.ofInt 6 a))

/-! ### The hardware shape of the codec (R92) -/

/-- The `encode` block: `enc_a`, `enc_b`, `enc_c` in, `enc_word` out. -/
def encodePort (u : Config.UnrecWidth) (encA : Opcode) (encB : NarrowField) (encC : WideField) : Word :=
  pack u ⟨encA, encB, encC⟩

/-- The `decode` block: four byte inputs of which the first `decN` are valid; out come the fields and the
variant. `decN` is 0 to 4; a larger count is refused like more than 4 bytes (D26). -/
def decodePort (u : Config.UnrecWidth) (b0 b1 b2 b3 : Byte) (decN : BitVec 3) :
    Except DecodeRefusal (Fields × Variant) :=
  if decN.toNat ≤ 4 then
    (decode u ([b0, b1, b2, b3].take decN.toNat)).map fun f => (f, classify f.a)
  else .error (.tooManyBytes decN.toNat)

/-! ### The host's question about the opcode table -/

/-- `n` bytes of a number, least significant first. -/
def bytesOfNat : Nat → Nat → List Byte
  | 0, _ => []
  | n + 1, w => BitVec.ofNat 8 w :: bytesOfNat n (w / 256)

/-- The chunk whose bits are `w`, numbered as the opcode table numbers them: four bytes in stream order, bits
above `nbits` zero; a longer row gives the longer chunk. -/
def tableBytes (nbits w : Nat) : List Byte := bytesOfNat (max 4 ((nbits + 7) / 8)) (w % 2 ^ nbits)

/-- What the decoder reads from such a chunk (`CW_UNREC` at its default 13). -/
def decodeTableWord (nbits w : Nat) : Option Instr :=
  match decodeInstr .bits13 (tableBytes nbits w) with
  | .ok i => some i
  | .error _ => none

end Sys2Proof
end

