-- ==== Sys2Proof/Machine/State.lean ====
section
/-!
DEFINITION. The machine's state as plain data (`10_state.md` R20), with the run's inputs beside it (R22, R33), its
reset, and the reasons a step can give no next state.
-/

namespace Sys2Proof.Machine

/-- The causes a fault record can hold (`60_exceptions.md` R170): code 1, which no run reaches (R171), and code 2. -/
inductive FaultCause where
  | register
  | memory
  deriving DecidableEq, Repr

/-- The fault record (R29): the cause, the offset of the offending instruction, the out-of-range value. -/
structure FaultRecord where
  cause : FaultCause
  offset : Nat
  index : BitVec 13
  deriving DecidableEq, Repr

/-- The data memory: (cell address, value) pairs, addresses strictly rising, no value 0; an unlisted cell
reads 0, its reset value (R31, R34). -/
abbrev Memory := List (Nat × Int)

/-- The architectural state `(x, M, pc, fault)` of R20, then the inputs of the run, which no instruction
changes (R22, R33; log entry 1). -/
structure State where
  /-- `x[0]` to `x[31]` (R21). -/
  regs : Vector Int 32
  /-- `M` (R31). -/
  mem : Memory
  /-- The byte offset of the chunk the next step fetches (R26). -/
  pc : Nat
  /-- The fault record, `none` while no fault is recorded (R29). -/
  fault : Option FaultRecord
  /-- The instruction stream; its length is `L` (R33). -/
  stream : List Byte
  /-- `XLEN`, `CAPACITY`, `PCW`, `CW_UNREC` (R6). -/
  params : Config.Params
  deriving DecidableEq, Repr

/-- The fresh state of R34 for given inputs: every register and cell 0, `pc` 0, no fault. -/
def State.fresh (p : Config.Params) (stream : List Byte) : State :=
  { regs := Vector.replicate 32 0
    mem := []
    pc := 0
    fault := none
    stream := stream
    params := p }

/-- The machine right after reset (R34), with the parameters at the spec's defaults and the empty stream: the
host has supplied none yet (DESIGN CHOICE, log entry 2). -/
def State.reset : State := State.fresh Config.defaultParams []

/-- Why the machine has stopped failing. -/
inductive Fault where
  /-- Raised by `step` alone, on a state that already holds a fault record: the run has failed and no step is
  enabled (R101, R113, R181). Safe: the spec gives the faulted condition no step. -/
  | runFaulted (record : FaultRecord)
  deriving DecidableEq, Repr

/-- Why there is no meaning to give. -/
inductive Refusal where
  /-- Raised by `step` alone, when the run has ended normally (`pc >= L`, no fault): no step is enabled
  (R101, R109). Safe: the spec gives the done condition no step. -/
  | runDone
  /-- Raised by an arm of `exec` whose instruction has no meaning yet; no arm does. Safe. -/
  | notModelled (mnemonic : String)
  deriving DecidableEq, Repr

end Sys2Proof.Machine
end

