-- ==== Sys2Proof/Machine/Ops.lean ====
section
/-!
DEFINITION. The named operations over memory, registers and `pc`, fetching, and the taking of an exception
(`00_scope.md` R10; `20_memory.md` R43 to R46; `60_exceptions.md` R179).
-/

namespace Sys2Proof.Machine

/-- What one step or one host action answers. -/
abbrev Result := Host.Outcome State Fault Refusal

/-! ### The memory list -/

/-- The value of cell `k`; an unlisted cell reads 0 (R34, R35). -/
def Memory.read : Memory → Nat → Int
  | [], _ => 0
  | (a, v) :: rest, k => if k = a then v else Memory.read rest k

/-- Set cell `k` to `v`, keeping the list canonical: writing 0 removes the entry. -/
def Memory.write : Memory → Nat → Int → Memory
  | [], k, v => if v = 0 then [] else [(k, v)]
  | (a, x) :: rest, k, v =>
    if k < a then (if v = 0 then (a, x) :: rest else (k, v) :: (a, x) :: rest)
    else if k = a then (if v = 0 then rest else (k, v) :: rest)
    else (a, x) :: Memory.write rest k v

/-- Addresses strictly rising from `low` on, and no value 0. -/
def Memory.wfFrom : Nat → Memory → Bool
  | _, [] => true
  | low, (a, v) :: rest => decide (low ≤ a) && decide (v ≠ 0) && Memory.wfFrom (a + 1) rest

/-- The canonical form: addresses strictly rising, no value 0. -/
def Memory.wf (m : Memory) : Bool := Memory.wfFrom 0 m

/-! ### Reading the state -/

/-- `x[i]` for a 5-bit index, which always names a register (R21). -/
def State.reg (s : State) (i : NarrowField) : Int := s.regs[i.toNat]'i.isLt

/-- The content of cell `k`, as state (R31). -/
def State.cell (s : State) (k : Nat) : Int := s.mem.read k

/-! ### Exceptions -/

/-- A failed check, before it is recorded: its kind and the out-of-range value (R170). -/
structure Trap where
  cause : FaultCause
  index : Nat
  deriving DecidableEq, Repr

/-- The numeric code of a cause (R29, R170). -/
def FaultCause.code : FaultCause → BitVec 2
  | .register => 1#2
  | .memory => 2#2

/-- `raise OutOfRange(kind, pc, index)`: taking an exception writes the fault record and nothing else; `pc`
stays at the offending instruction and control goes nowhere (R179). -/
def State.raise (s : State) (t : Trap) : State :=
  { s with fault := some { cause := t.cause, offset := s.pc, index := BitVec.ofNat 13 t.index } }

/-- There is no return from a fault (R181): what leaves a faulted machine is a reset, which makes every piece
of state fresh and keeps the inputs (R200). -/
def State.restart (s : State) : State := State.fresh s.params s.stream

/-! ### Registers and memory, with their range checks -/

/-- The register-index check, cause 1; it never fires on a decoded index (R171). -/
def checkReg (i : Nat) : Except Trap Unit :=
  if i < 32 then .ok () else .error { cause := .register, index := i }

/-- Read register `i`. -/
def State.readReg (s : State) (i : Nat) : Except Trap Int :=
  if h : i < 32 then .ok s.regs[i] else .error { cause := .register, index := i }

/-- Write register `i`, and nothing else; no register is hard-wired (R23). -/
def State.writeReg (s : State) (i : Nat) (v : Int) : Except Trap State :=
  if h : i < 32 then .ok { s with regs := s.regs.set i v } else .error { cause := .register, index := i }

/-- `MemRead(addr, 1)` (R43). -/
def State.memRead (s : State) (addr : Nat) : Except Trap Int :=
  if addr < s.params.capacity then .ok (s.cell addr) else .error { cause := .memory, index := addr }

/-- `MemWrite(addr, 1, v)` (R44). -/
def State.memWrite (s : State) (addr : Nat) (v : Int) : Except Trap State :=
  if addr < s.params.capacity then .ok { s with mem := s.mem.write addr v }
  else .error { cause := .memory, index := addr }

/-! ### The frame of every step -/

/-- `pc <- pc + 4` (R103). -/
def State.advance (s : State) : State := { s with pc := s.pc + 4 }

/-- The end of a step: an instruction whose checks passed leaves its effect and advances `pc`; one whose check
failed leaves nothing but the fault record on the state it began from (R102, R112). -/
def State.commit (s : State) (effect : Except Trap State) : Result :=
  match effect with
  | .ok t => .next t.advance
  | .error e => .next (s.raise e)

/-! ### Fetching -/

/-- `Fetch(pc)`: the 1 to 4 bytes left at `pc`, at most 4 (R46). -/
def State.fetch (s : State) : List Byte := (s.stream.drop s.pc).take 4

/-- The instruction the next step runs: the fetched chunk, zero-padded and decoded (R73, R84, R102). -/
def State.nextInstr (s : State) : Instr := instrOfWord s.params.cwUnrec (wordOf s.fetch)

/-- The stream with a chunk laid at offset `pos`, zero bytes filling up to it. -/
def layChunk (stream : List Byte) (pos : Nat) (chunk : List Byte) : List Byte :=
  stream.take pos ++ List.replicate (pos - stream.length) 0#8 ++ chunk ++ stream.drop (pos + chunk.length)

end Sys2Proof.Machine
end

