-- ==== Sys2Proof/Machine/Operands.lean ====
section
/-!
DEFINITION. The operand forms (`30_encoding.md` R66, R76): every operand is the plain unsigned value of its field.
The one computed value, a negation, stands here too (`43_arithmetic.md` R131).
-/

namespace Sys2Proof.Machine

/-- A register index, from `b` or from the `c` of `UNARY_MINUS`. -/
def regOperand (f : NarrowField) : Nat := f.toNat

/-- An absolute cell address of the wide format: the field itself, no base, no scaling (R122). -/
def wideAddress (f : WideField) : Nat := f.toNat

/-- An absolute cell address of the narrow format (R121). -/
def narrowAddress (f : NarrowField) : Nat := f.toNat

/-- The constant of `LOAD_CONST`, zero-extended to `XLEN` bits and read as signed (R66, R120). -/
def constOperand (xlen : Nat) (f : WideField) : Int := (f.setWidth xlen).toInt

/-- `neg(v)`: the negation of a signed `XLEN`-bit value in two's complement; the most negative value wraps to
itself (R131). -/
def neg (xlen : Nat) (v : Int) : Int := (-BitVec.ofInt xlen v).toInt

end Sys2Proof.Machine
end

