-- ==== Sys2Proof/Machine/Arithmetic.lean ====
section
/-!
DEFINITION. The arithmetic instruction (`43_arithmetic.md`).
-/

namespace Sys2Proof.Machine

/-- `UNARY_MINUS b, c`: `x[b] <- neg(x[c])`, register to register, the source read before the destination is
written, so `b = c` negates in place (R130, R205). -/
def execUnaryMinus (b : NarrowField) (c : NarrowField) (s : State) : Result :=
  s.commit (do
    let v ← s.readReg (regOperand c)
    s.writeReg (regOperand b) (neg s.params.xlen v))

end Sys2Proof.Machine
end

