-- ==== Sys2Proof/Machine/DataMovement.lean ====
section
/-!
DEFINITION. The data movement instructions (`42_data_movement.md`). Each meaning is the instruction's own arm of
`41_sequencer.md` R102, in the order of R112: source read, range check, destination write, `pc` advance.
-/

namespace Sys2Proof.Machine

/-- `LOAD_CONST b, c`: `x[b] <- zext(c)` (R120). -/
def execLoadConst (b : NarrowField) (c : WideField) (s : State) : Result :=
  s.commit (s.writeReg (regOperand b) (constOperand s.params.xlen c))

/-- `READ_MEM b, c`: `x[b] <- M[c]`, the whole cell (R121); the register check comes before the memory check
(R178). -/
def execReadMem (b : NarrowField) (c : NarrowField) (s : State) : Result :=
  s.commit (do
    checkReg (regOperand b)
    let v ← s.memRead (narrowAddress c)
    s.writeReg (regOperand b) v)

/-- `WRITE_MEM b, c`: `M[c] <- x[b]`, the whole register (R122). -/
def execWriteMem (b : NarrowField) (c : WideField) (s : State) : Result :=
  s.commit (do
    let v ← s.readReg (regOperand b)
    s.memWrite (wideAddress c) v)

end Sys2Proof.Machine
end

