-- ==== Sys2Proof/Machine/NoOperation.lean ====
section
/-!
DEFINITION. The no-operation of every unrecognised opcode (`41_sequencer.md` R104).
-/

namespace Sys2Proof.Machine

/-- An unrecognised opcode changes nothing but `pc`; its fields are not used and not range-checked (R104). -/
def execUnrecognized (_a : Opcode) (_b : NarrowField) (_c : WideField) (s : State) : Result :=
  s.commit (.ok s)

end Sys2Proof.Machine
end

