-- ==== Sys2Proof/Machine/Dispatch.lean ====
section
/-!
DEFINITION. One arm per row of the opcode table (`41_sequencer.md` R102).
-/

namespace Sys2Proof.Machine

/-- The instruction's own part of a step: its arm, with the `pc` advance or the fault record (R102). -/
def exec (i : Instr) (s : State) : Host.Outcome State Fault Refusal :=
  match i with
  | .loadConst b c => Sys2Proof.Machine.execLoadConst b c s
  | .readMem b c => Sys2Proof.Machine.execReadMem b c s
  | .writeMem b c => Sys2Proof.Machine.execWriteMem b c s
  | .unaryMinus b c => Sys2Proof.Machine.execUnaryMinus b c s
  | .unrecognized a b c => Sys2Proof.Machine.execUnrecognized a b c s

end Sys2Proof.Machine
end

