-- ==== Sys2Proof/Machine/Flags.lean ====
section
/-!
DEFINITION. The hardware has no status flags and no instruction sets or reads one (`10_state.md` R28). What it
shows are four outputs computed from the state (R30) and the code of the fault record at a port (R29).
-/

namespace Sys2Proof.Machine

/-- `faulted = (fault != none)` (R30). -/
def State.faulted (s : State) : Bool := s.fault.isSome

/-- `done = (fault = none) and (pc >= L)` (R30). -/
def State.done (s : State) : Bool := s.fault.isNone && decide (s.stream.length ≤ s.pc)

/-- `running = (fault = none) and (pc < L)` (R30). -/
def State.running (s : State) : Bool := s.fault.isNone && decide (s.pc < s.stream.length)

/-- `trunc = (L mod 4 != 0)`, informational only (R30, R174). -/
def State.trunc (s : State) : Bool := decide (s.stream.length % 4 ≠ 0)

/-- The cause as a port shows it: 0 while no fault is recorded (R29). -/
def State.causeCode (s : State) : BitVec 2 :=
  match s.fault with
  | none => 0#2
  | some r => r.cause.code

/-- The offset as a port shows it (R29, R34). -/
def State.faultOffset (s : State) : Nat :=
  match s.fault with
  | none => 0
  | some r => r.offset

/-- The index as a port shows it (R29, R34). -/
def State.faultIndex (s : State) : BitVec 13 :=
  match s.fault with
  | none => 0#13
  | some r => r.index

end Sys2Proof.Machine
end

