-- ==== Sys2Proof/Machine/Step.lean ====
section
/-!
DEFINITION. One step of the run loop (`41_sequencer.md` R102), and a chunk laid where the next step fetches.
-/

namespace Sys2Proof.Machine

/-- The step, enabled only when `running` (R101, R102, R113): a faulted machine and a done machine have none,
and answer why (log entry 5). -/
def step (s : State) : Host.Outcome State Fault Refusal :=
  match s.fault with
  | some r => .fault (.runFaulted r)
  | none => if s.running then exec s.nextInstr s else .refused .runDone

/-- The state whose next step fetches and runs the chunk with bits `w`: the chunk stands in the stream at `pc`
and no fault is recorded (log entry 2). -/
def State.withFetchWord (s : State) (nbits w : Nat) : State :=
  { s with stream := layChunk s.stream s.pc (tableBytes nbits w), fault := none }

end Sys2Proof.Machine
end

