-- ==== Sys2Proof/Machine/Run.lean ====
section
/-!
DEFINITION. A run: steps until the machine is `done` or `faulted` (`41_sequencer.md` R107, R109).
-/

namespace Sys2Proof.Machine

/-- At most `n` steps, stopping where no step is enabled. -/
def State.runFor : Nat → State → State
  | 0, s => s
  | n + 1, s =>
    match step s with
    | .next t => State.runFor n t
    | .fault _ => s
    | .refused _ => s

/-- Exactly `n` steps one after another, or why one of them was not there to take (R106). -/
def State.stepN : Nat → State → Result
  | 0, s => .next s
  | n + 1, s =>
    match step s with
    | .next t => State.stepN n t
    | .fault r => .fault r
    | .refused r => .refused r

/-- How many steps are left at most: `ceil((L - pc) / 4)` (R107). -/
def State.stepsLeft (s : State) : Nat := (s.stream.length - s.pc + 3) / 4

/-- The end of the run from `s`. -/
def State.runToEnd (s : State) : State := State.runFor s.stepsLeft s

end Sys2Proof.Machine
end

