-- ==== Sys2Proof/Machine/Ports.lean ====
section
/-!
DEFINITION. The host interface (`44_host_and_toolchain.md` part 1): the status, dump and register inspection
ports, and the host's moves as one function over a session (R140).
-/

namespace Sys2Proof.Machine

/-- Why a request of the host is refused; the machine's state does not change (R140, R142). -/
inductive PortRefusal where
  /-- `OutOfRange.Dump`, code 3, with the first bad address of the range (R142, R173). -/
  | outOfRangeDump (firstBad : Int)
  /-- A dump while `running` or `faulted` (R141, decision D18). -/
  | notDone
  /-- A register inspection while `running` (R144, decision D18). -/
  | notEnded
  /-- A run without a reset of its own before it (R140, R200; log entry 7). -/
  | needsReset
  /-- A stream too long for `PCW` (R27, R140). -/
  | streamTooLong (length : Nat)
  /-- An `XLEN` below 14 (R6). -/
  | illegalWidth (xlen : Nat)
  /-- `decode` of more than 4 bytes (R85, decision D26). -/
  | tooManyBytes (n : Nat)
  deriving DecidableEq, Repr

/-- The numeric code a refusal reports, where the spec gives it one (R170). -/
def PortRefusal.code : PortRefusal → Option (BitVec 2)
  | .outOfRangeDump _ => some 3#2
  | .notDone => none
  | .notEnded => none
  | .needsReset => none
  | .streamTooLong _ => none
  | .illegalWidth _ => none
  | .tooManyBytes _ => none

/-- What the status port shows (R140; the outputs of the sequencer, R114). -/
structure Status where
  running : Bool
  done : Bool
  faulted : Bool
  trunc : Bool
  pc : Nat
  cause : BitVec 2
  offset : Nat
  index : BitVec 13
  deriving DecidableEq, Repr

/-- The status port, readable at any time, changing nothing (R140). -/
def State.status (s : State) : Status :=
  { running := s.running
    done := s.done
    faulted := s.faulted
    trunc := s.trunc
    pc := s.pc
    cause := s.causeCode
    offset := s.faultOffset
    index := s.faultIndex }

/-- What the sequencer's stream port carries: the length of the stream, and the bytes at `pc` to `pc + 3` with a
count of how many are valid (R114). -/
structure StreamPort where
  length : Nat
  bytes : List Byte
  valid : Nat
  deriving DecidableEq, Repr

/-- The stream port of a state (R114). -/
def State.streamPort (s : State) : StreamPort :=
  { length := s.stream.length
    bytes := s.fetch
    valid := s.fetch.length }

/-- The first address of `[start, stop]` that is not below the capacity or is negative (R142). -/
def firstBad (capacity : Nat) (start stop : Int) : Option Int :=
  if start < 0 ∨ (capacity : Int) ≤ start then some start
  else if (capacity : Int) ≤ stop then some capacity
  else none

/-- The rows `(k, M[k])` for `n` cells from `start` on, in ascending order (R141). -/
def State.rowsFrom (s : State) : Nat → Nat → List (Nat × Int)
  | _, 0 => []
  | start, n + 1 => (start, s.cell start) :: s.rowsFrom (start + 1) n

/-- The dump of the inclusive range `[start, stop]`: only when `done` (R141); an empty range gives no row
and no error; a range with a bad address is refused whole (R142). -/
def State.dump (s : State) (start stop : Int) : Except PortRefusal (List (Nat × Int)) :=
  if s.done = false then .error .notDone
  else if stop < start then .ok []
  else
    match firstBad s.params.capacity start stop with
    | some k => .error (.outOfRangeDump k)
    | none => .ok (s.rowsFrom start.toNat (stop - start + 1).toNat)

/-- Register inspection, when `done` or `faulted` (R144). -/
def State.inspect (s : State) (i : NarrowField) : Except PortRefusal Int :=
  if s.running then .error .notEnded else .ok (s.reg i)

/-- The inputs of a run as the host configures them (R140). -/
structure Inputs where
  params : Config.Params
  stream : List Byte
  deriving DecidableEq, Repr

/-- Whether a reset has been applied since the last run and the last `configure`, as a run needs (R140, R200, R202;
the phase is the model's own, log entry 7). -/
inductive Phase where
  | awaitingReset
  | ready
  deriving DecidableEq, Repr

/-- The host's side of the machine: the machine as its last reset or run left it, and the inputs that the next
reset makes its own. -/
structure Session where
  machine : State
  inputs : Inputs
  phase : Phase
  deriving DecidableEq, Repr

/-- Before anything is configured: the machine and the inputs of `State.reset` (log entries 2 and 7). -/
def Session.initial : Session :=
  { machine := State.reset
    inputs := { params := State.reset.params, stream := State.reset.stream }
    phase := .awaitingReset }

/-- The host's moves, one per row of R140. -/
inductive Request where
  | configure (params : Config.Params) (stream : List Byte)
  | reset
  | run
  | status
  | dump (start stop : Int)
  | inspect (i : NarrowField)
  | encode (a b c : Int)
  | decode (bytes : List Byte)
  deriving DecidableEq, Repr

/-- What the host gets back (R140). -/
inductive Response where
  | nothing
  | status (status : Status)
  | rows (rows : List (Nat × Int))
  | value (v : Int)
  | bytes (bytes : List Byte)
  | fields (fields : Fields)
  deriving DecidableEq, Repr

/-- `configure` holds the inputs for the next run; a stream too long for `PCW` is refused (R27, R140). The machine
keeps its condition, since only a reset leaves `done` or `faulted` (R109), so the inputs wait for the reset (DEDUCED,
log entry 15). Of two grounds to refuse, the width is named before the stream (DESIGN CHOICE, log entry 16). -/
def Session.configure (h : Session) (p : Config.Params) (stream : List Byte) :
    Except PortRefusal (Session × Response) :=
  if p.legal = false then .error (.illegalWidth p.xlen)
  else if p.streamFits stream.length = false then .error (.streamTooLong stream.length)
  else .ok ({ h with inputs := { params := p, stream := stream }, phase := .awaitingReset }, .nothing)

/-- `reset` makes every piece of state fresh, for a run of the configured inputs, in any condition (R140, R200). -/
def Session.reset (h : Session) : Session :=
  { h with
    machine := { h.machine with params := h.inputs.params, stream := h.inputs.stream }.restart
    phase := .ready }

/-- `run` takes steps to the end of the run and shows the status; it needs a reset before it (R140). -/
def Session.run (h : Session) : Except PortRefusal (Session × Response) :=
  match h.phase with
  | .ready =>
    let t := h.machine.runToEnd
    .ok ({ h with machine := t, phase := .awaitingReset }, .status t.status)
  | .awaitingReset => .error .needsReset

/-- The refusal a host sees when the decoder refuses (D26). -/
def decodeRefused : DecodeRefusal → PortRefusal
  | .tooManyBytes n => .tooManyBytes n

/-- One move of the host (R140): the session after it and what comes back, or a refusal that leaves the
session as it was. -/
def Session.handle (h : Session) : Request → Except PortRefusal (Session × Response)
  | .configure p stream => h.configure p stream
  | .reset => .ok (h.reset, .nothing)
  | .run => h.run
  | .status => .ok (h, .status h.machine.status)
  | .dump start stop => (h.machine.dump start stop).map fun rows => (h, .rows rows)
  | .inspect i => (h.machine.inspect i).map fun v => (h, .value v)
  | .encode a b c => .ok (h, .bytes (Sys2Proof.encode h.machine.params.cwUnrec a b c))
  | .decode bytes =>
    match Sys2Proof.decode h.machine.params.cwUnrec bytes with
    | .ok f => .ok (h, .fields f)
    | .error e => .error (decodeRefused e)

/-- The interpreter tool: configure, reset, run, then one dump (R140, R153). -/
def interpret (p : Config.Params) (stream : List Byte) (start stop : Int) :
    Except PortRefusal (List (Nat × Int)) := do
  let (h, _) ← Session.initial.handle (.configure p stream)
  let (h, _) ← h.handle .reset
  let (h, _) ← h.handle .run
  h.machine.dump start stop

end Sys2Proof.Machine
end

