-- ==== Sys2Proof/Machine/Text.lean ====
section
/-!
DEFINITION. Numbers as text, and the dump as a CSV file (`44_host_and_toolchain.md` R143). Text is a list of
characters.
-/

namespace Sys2Proof.Machine

/-- Text, one character after another. -/
abbrev Text := List Char

/-- A natural number in base 10. -/
def natText (n : Nat) : Text := Nat.toDigits 10 n

/-- An integer in base 10, a negative one with a leading `-` (R143). -/
def intText (v : Int) : Text := if v < 0 then '-' :: natText v.natAbs else natText v.natAbs

/-- One hexadecimal digit, lower case (R150). -/
def hexDigit (d : BitVec 4) : Char := Nat.digitChar d.toNat

/-- Two lower-case hexadecimal digits of a byte (R150). -/
def hexByte (b : Byte) : Text := [hexDigit (b.extractLsb' 4 4), hexDigit (b.extractLsb' 0 4)]

/-- The parameter `CSV_EOL`: what ends a line, and whether the last line is ended too (R143, decision D25). -/
structure CsvEol where
  terminator : Text
  finalLine : Bool
  deriving DecidableEq, Repr

/-- Fields with commas between them. -/
def csvRow : List Text → Text
  | [] => []
  | [f] => f
  | f :: rest => f ++ ',' :: csvRow rest

/-- Lines with their terminators. -/
def csvLines (eol : CsvEol) : List Text → Text
  | [] => []
  | [l] => if eol.finalLine then l ++ eol.terminator else l
  | l :: rest => l ++ eol.terminator ++ csvLines eol rest

/-- The memory dump file: header `Address,Value`, then one row per address (R143). -/
def dumpCsv (eol : CsvEol) (rows : List (Nat × Int)) : Text :=
  csvLines eol ("Address,Value".toList :: rows.map fun r => csvRow [natText r.1, intText r.2])

end Sys2Proof.Machine
end

