-- ==== Sys2Proof/Machine/Assembler.lean ====
section
/-!
DEFINITION. The assembler, the software that makes the stream (`30_encoding.md` R74 to R79,
`44_host_and_toolchain.md` part 2), and the disassembler's view of a word (R78).
-/

namespace Sys2Proof.Machine

/-- The four mnemonics (R75). -/
inductive Mnemonic where
  | loadConst
  | readMem
  | writeMem
  | unaryMinus
  deriving DecidableEq, Repr

/-- The spelling, in upper case (R75, R150). -/
def Mnemonic.text : Mnemonic → Text
  | .loadConst => "LOAD_CONST".toList
  | .readMem => "READ_MEM".toList
  | .writeMem => "WRITE_MEM".toList
  | .unaryMinus => "UNARY_MINUS".toList

/-- The mnemonic table's opcode (R67, R75). -/
def Mnemonic.opcode : Mnemonic → Nat
  | .loadConst => 7
  | .readMem => 49
  | .writeMem => 51
  | .unaryMinus => 55

/-- A token is matched without regard to letter case (R74, R146). -/
def mnemonicOf (token : Text) : Option Mnemonic :=
  [Mnemonic.loadConst, .readMem, .writeMem, .unaryMinus].find? fun m => decide (token.map Char.toUpper = m.text)

/-- Digits to a number; at least one digit. -/
def parseNat (t : Text) : Option Nat :=
  if t ≠ [] ∧ t.all Char.isDigit = true then some (Nat.ofDigitChars 10 t 0) else none

/-- A base-10 literal with an optional sign (R77). -/
def parseInt : Text → Option Int
  | '-' :: ds => (parseNat ds).map fun n => -(n : Int)
  | '+' :: ds => (parseNat ds).map fun n => (n : Int)
  | ds => (parseNat ds).map fun n => (n : Int)

/-- The pieces of a text between the characters that `p` picks out. -/
def pieces (p : Char → Bool) : Text → List Text
  | [] => [[]]
  | c :: rest =>
    if p c then [] :: pieces p rest
    else
      match pieces p rest with
      | [] => [[c]]
      | l :: ls => (c :: l) :: ls

/-- The lines of the source text (log entry 8). -/
def linesOf (src : Text) : List Text := pieces (fun c => c == '\n') src

/-- The whitespace-separated tokens of a line (R74; log entry 8). -/
def tokensOf (line : Text) : List Text := (pieces Char.isWhitespace line).filter fun t => !t.isEmpty

/-- The assembler's error classes (R146, R170). -/
inductive AsmErrorClass where
  /-- `SyntaxError`, naming the unknown mnemonic or the token that is no integer. -/
  | syntaxError (token : Text)
  /-- `ArgumentCountError`, naming the mnemonic and the expected count. -/
  | argumentCount (mnemonic : Mnemonic) (expected : Nat)
  deriving DecidableEq, Repr

/-- An error with the content of the offending line (R148). -/
structure AsmError where
  kind : AsmErrorClass
  line : Text
  deriving DecidableEq, Repr

/-- One record per assembled instruction (R150). -/
structure LogEntry where
  operation : Mnemonic
  a : Opcode
  b : NarrowField
  c : WideField
  rawBytes : List Byte
  deriving DecidableEq, Repr

/-- The bytes of one instruction line (R147). No mnemonic's opcode depends on `CW_UNREC` (R80). -/
def assembleFields (m : Mnemonic) (b c : Int) : List Byte := encode .bits13 m.opcode b c

/-- The log entry of one instruction line: the fields as decoded from the emitted bytes (R150). -/
def logEntryOf (m : Mnemonic) (bytes : List Byte) : LogEntry :=
  let f := unpack .bits13 (wordOf bytes)
  { operation := m, a := f.a, b := f.b, c := f.c, rawBytes := bytes }

/-- The two argument tokens after a mnemonic (R146); the first bad one is named (log entry 9). -/
def assembleArgs (m : Mnemonic) : List Text → Except AsmErrorClass LogEntry
  | [tb, tc] =>
    match parseInt tb with
    | none => .error (.syntaxError tb)
    | some b =>
      match parseInt tc with
      | none => .error (.syntaxError tc)
      | some c => .ok (logEntryOf m (assembleFields m b c))
  | _ => .error (.argumentCount m 2)

/-- The tokens of a line that is neither blank nor a comment: mnemonic first, then its arguments (R146). -/
def assembleTokens : List Text → Except AsmErrorClass (Option LogEntry)
  | [] => .ok none
  | token :: args =>
    match mnemonicOf token with
    | none => .error (.syntaxError token)
    | some m => (assembleArgs m args).map some

/-- One line: nothing for a blank line or a comment, else one instruction or an error (R74, R146). -/
def assembleLine (line : Text) : Except AsmErrorClass (Option LogEntry) :=
  match line.dropWhile Char.isWhitespace with
  | [] => .ok none
  | '#' :: _ => .ok none
  | rest => assembleTokens (tokensOf rest)

/-- The whole pass, in source order; the first failing line ends it with its error (R79, R148). -/
def assembleLines : List Text → Except AsmError (List LogEntry)
  | [] => .ok []
  | line :: rest =>
    match assembleLine line with
    | .error e => .error { kind := e, line := line }
    | .ok none => assembleLines rest
    | .ok (some entry) =>
      match assembleLines rest with
      | .error e => .error e
      | .ok log => .ok (entry :: log)

/-- The assembler: the log of a source text, one entry per instruction. -/
def assemble (src : Text) : Except AsmError (List LogEntry) := assembleLines (linesOf src)

/-- The binary file: the entries' bytes in order (R147, R149). -/
def binaryOf (log : List LogEntry) : List Byte := log.flatMap LogEntry.rawBytes

/-- The columns of one log row: `operation,A,B,C,raw_bytes` (R149, R150). -/
def LogEntry.row (e : LogEntry) : Text :=
  csvRow [e.operation.text, natText e.a.toNat, natText e.b.toNat, natText e.c.toNat, e.rawBytes.flatMap hexByte]

/-- The log file (R149). -/
def logCsv (eol : CsvEol) (log : List LogEntry) : Text :=
  csvLines eol ("operation,A,B,C,raw_bytes".toList :: log.map LogEntry.row)

/-- The two files of a successful pass, binary and log; a failed pass writes neither (R148, R149). -/
def assembleFiles (eol : CsvEol) (src : Text) : Except AsmError (List Byte × Text) :=
  (assemble src).map fun log => (binaryOf log, logCsv eol log)

/-- An instruction line in assembly: `MNEMONIC B C` (R74). -/
def lineText (m : Mnemonic) (b c : Nat) : Text := m.text ++ ' ' :: natText b ++ ' ' :: natText c

/-- The assembly spelling of a word; a word with an unrecognised opcode has none (R78). -/
def disassemble (u : Config.UnrecWidth) (w : Word) : Option Text :=
  match instrOfWord u w with
  | .loadConst b c => some (lineText .loadConst b.toNat c.toNat)
  | .readMem b c => some (lineText .readMem b.toNat c.toNat)
  | .writeMem b c => some (lineText .writeMem b.toNat c.toNat)
  | .unaryMinus b c => some (lineText .unaryMinus b.toNat c.toNat)
  | .unrecognized _ _ _ => none

end Sys2Proof.Machine
end

