-- ==== Sys2Proof/Safety.lean ====
section
/-!
DEFINITION. What counts as a safe run, the invariants of the machine, the frames, and the instruction lines of a
source text: the terms that claims are stated in.
-/

namespace Sys2Proof.Machine

/-- A safe run ends normally: no access of it was out of range (`41_sequencer.md` R109). -/
def safeRun (p : Config.Params) (stream : List Byte) : Prop := (State.fresh p stream).runToEnd.done = true

/-! ### Invariants -/

/-- The range of every value a run can make (`10_state.md` R25). -/
def SmallValue (v : Int) : Prop := -8191 ≤ v ∧ v ≤ 8191

/-- Every register and every cell is in that range. -/
def State.SmallValues (s : State) : Prop :=
  (∀ i : NarrowField, SmallValue (s.reg i)) ∧ ∀ k : Nat, SmallValue (s.cell k)

/-- The memory list is canonical and lists only cells that exist (`10_state.md` R31). -/
def State.MemInv (s : State) : Prop :=
  s.mem.wf = true ∧ ∀ e ∈ s.mem, e.1 < s.params.capacity

/-- `pc` is a multiple of 4 and at most `4 * ceil(L / 4)` (R26, R27). -/
def State.PcInv (s : State) : Prop :=
  s.pc % 4 = 0 ∧ s.pc ≤ 4 * ((s.stream.length + 3) / 4)

/-- A recorded fault has cause 2, stands at `pc` inside the stream, and names an address that does not exist
(R29, R171, R179). -/
def State.FaultInv (s : State) : Prop :=
  ∀ r, s.fault = some r →
    r.cause = .memory ∧ r.offset = s.pc ∧ s.pc < s.stream.length ∧ s.params.capacity ≤ r.index.toNat

/-! ### Frames -/

/-- The run's inputs are the same (R22, R33). -/
def sameInputs (s t : State) : Prop := t.stream = s.stream ∧ t.params = s.params

/-- A completed instruction that wrote register `b` alone: every other register, every cell, the fault record
and the inputs are as before, and `pc` is 4 on. -/
def wroteOnlyReg (s t : State) (b : NarrowField) : Prop :=
  (∀ j, j ≠ b → t.reg j = s.reg j) ∧ (∀ k, t.cell k = s.cell k) ∧
    t.pc = s.pc + 4 ∧ t.fault = s.fault ∧ sameInputs s t

/-- A completed instruction that wrote cell `k` alone. -/
def wroteOnlyCell (s t : State) (k : Nat) : Prop :=
  (∀ j, t.reg j = s.reg j) ∧ (∀ m, m ≠ k → t.cell m = s.cell m) ∧
    t.pc = s.pc + 4 ∧ t.fault = s.fault ∧ sameInputs s t

/-- A completed instruction that wrote neither a register nor a cell. -/
def wroteNothing (s t : State) : Prop :=
  (∀ j, t.reg j = s.reg j) ∧ (∀ k, t.cell k = s.cell k) ∧
    t.pc = s.pc + 4 ∧ t.fault = s.fault ∧ sameInputs s t

/-- An instruction stopped by the memory check on address `addr`: the fault record is written and nothing
else, `pc` stays (R179). -/
def trappedOnAddress (s t : State) (addr : Nat) : Prop :=
  (∃ r, t.fault = some r ∧ r.cause = .memory ∧ r.offset = s.pc ∧ r.index.toNat = addr) ∧
    (∀ j, t.reg j = s.reg j) ∧ (∀ k, t.cell k = s.cell k) ∧ t.pc = s.pc ∧ sameInputs s t

/-! ### Assembly source -/

/-- A line that is neither blank nor a comment (`30_encoding.md` R74, R79). -/
def isInstructionLine (line : Text) : Bool :=
  match line.dropWhile Char.isWhitespace with
  | [] => false
  | c :: _ => c != '#'

/-- The instruction lines of a source text, in order (R79). -/
def instructionLines (src : Text) : List Text := (linesOf src).filter isInstructionLine

/-! ### Comparing runs with other parameters -/

/-- The same state with another `XLEN`. -/
def State.withXlen (s : State) (n : Nat) : State := { s with params := { s.params with xlen := n } }

/-- The same state with another `CW_UNREC`. -/
def State.withUnrec (s : State) (u : Config.UnrecWidth) : State :=
  { s with params := { s.params with cwUnrec := u } }

/-- Two states that agree on everything but their parameters. -/
def sameArchState (s t : State) : Prop :=
  s.regs = t.regs ∧ s.mem = t.mem ∧ s.pc = t.pc ∧ s.fault = t.fault ∧ s.stream = t.stream

end Sys2Proof.Machine
end

