-- ==== Sys2Proof/Certificates/Slice0/Obligations.lean ====
section
/-!
DEFINITION. The statements for the provers, each from the spec's rules. Where a statement rests on a choice of the
model or on a decision or inference the spec marks as its own, its docstring says so.
-/

open Sys2Proof Sys2Proof.Machine

/-! ### The codec -/

/-- R81: `encode` masks the opcode to 6 bits, `b` to 5, and `c` to the width of the masked opcode's family, then
packs; byte 0 is the lowest, byte 3 is always 0, and byte 2 too for a narrow opcode. That the family is the masked
opcode's is decision D7 (R83), and the width of an unrecognised opcode, the parameter `CW_UNREC`, is D5. -/
def Obligations.EncodeMasksEachFieldThenPacks : Prop :=
  ∀ (u : Config.UnrecWidth) (a b c : Int) (span : Int),
    span = (if a % 64 = 7 ∨ a % 64 = 51 then 8192 else if a % 64 = 49 ∨ a % 64 = 55 then 32 else 2 ^ u.bits) →
    ∃ n : Nat, (n : Int) = a % 64 + b % 32 * 64 + c % span * 2048 ∧ n < 16777216 ∧ (span = 32 → n < 65536) ∧
      encode u a b c = [BitVec.ofNat 8 n, BitVec.ofNat 8 (n / 256), BitVec.ofNat 8 (n / 65536), 0#8]

/-- R82: out-of-range operands are truncated, not rejected, for any integers. `cw` takes the opcode masked to 6
bits: that a value of `a` outside 0 to 63 has the width of `a mod 64` is decision D7 (R83; log entry 14), and the
width for an unrecognised opcode, `CW_UNREC`, is decision D5 (log entry 6). -/
def Obligations.EncodeTruncatesOutOfRangeArguments : Prop :=
  ∀ (u : Config.UnrecWidth) (a b c : Int),
    encode u a b c = encode u a (b % 32) (c % 2 ^ cw u (BitVec.ofInt 6 a))

/-- R84: the three fields of up to four bytes, in little-endian order with missing bytes zero; bits above the
`c` field are dropped. For an unrecognised opcode the width of `c` is `CW_UNREC`, 13 by decision D5 or 5 by its
alternative (log entry 6). -/
def Obligations.DecodeReadsFieldsOfTheWord : Prop :=
  ∀ (u : Config.UnrecWidth) (bytes : List Byte) (n : Nat), bytes.length ≤ 4 →
    n = (bytes.getD 0 0#8).toNat + (bytes.getD 1 0#8).toNat * 256 + (bytes.getD 2 0#8).toNat * 65536 +
        (bytes.getD 3 0#8).toNat * 16777216 →
    ∃ f, decode u bytes = .ok f ∧ f.a.toNat = n % 64 ∧ f.b.toNat = n / 64 % 32 ∧
      f.c.toNat = n / 2048 % (if n % 64 = 7 ∨ n % 64 = 51 then 8192
        else if n % 64 = 49 ∨ n % 64 = 55 then 32 else 2 ^ u.bits)

/-- R85: short input is padded with zero bytes, and the empty input decodes to `(0, 0, 0)`. That more than 4 bytes
are refused is decision D26 (log entry 14), and the name of the refusal is the model's. -/
def Obligations.DecodePadsShortInputWithZeros : Prop :=
  ∀ (u : Config.UnrecWidth) (bytes : List Byte),
    (bytes.length ≤ 4 → decode u bytes = decode u (bytes ++ List.replicate (4 - bytes.length) 0#8) ∧
      ∃ f, decode u bytes = .ok f) ∧
    (4 < bytes.length → decode u bytes = .error (.tooManyBytes bytes.length)) ∧
    decode u [] = .ok ⟨0#6, 0#5, 0#13⟩

/-- R62 to R64, R67: the instruction of a word, selected by its low six bits alone, with the fields at their
places; the bits above `c` do not matter. For an unrecognised opcode the width of `c` is `CW_UNREC`, 13 by decision D5
or 5 by its alternative (log entry 6). -/
def Obligations.OpcodeSelectsInstructionAndFields : Prop :=
  ∀ (u : Config.UnrecWidth) (w : Word) (b : NarrowField), b = BitVec.ofNat 5 (w.toNat / 64) →
    instrOfWord u w =
      (if w.toNat % 64 = 7 then .loadConst b (BitVec.ofNat 13 (w.toNat / 2048))
       else if w.toNat % 64 = 49 then .readMem b (BitVec.ofNat 5 (w.toNat / 2048))
       else if w.toNat % 64 = 51 then .writeMem b (BitVec.ofNat 13 (w.toNat / 2048))
       else if w.toNat % 64 = 55 then .unaryMinus b (BitVec.ofNat 5 (w.toNat / 2048))
       else .unrecognized (BitVec.ofNat 6 w.toNat) b (BitVec.ofNat 13 (w.toNat / 2048 % 2 ^ u.bits)))

/-- R87: decoding an encoded valid triple gives the triple back for the four opcodes; for every unrecognised opcode
it does so with decision D5, `CW_UNREC` 13, and also with its alternative 5 (log entry 6). -/
def Obligations.DecodeInvertsEncodeOnValidTriples : Prop :=
  ∀ (u : Config.UnrecWidth) (a b c : Int), validTriple u a b c = true →
    ∃ f, decode u (encode u a b c) = .ok f ∧
      (f.a.toNat : Int) = a ∧ (f.b.toNat : Int) = b ∧ (f.c.toNat : Int) = c

/-- Every well-formed instruction is what its own bytes decode to. -/
def Obligations.DecodeInvertsEncodeOnInstructions : Prop :=
  ∀ (u : Config.UnrecWidth) (i : Instr), i.wellFormed u = true → decodeInstr u (encodeInstr u i) = .ok i

/-- Derived in the spec at R89: encoding what a word decodes to clears the unused bits and keeps the rest. -/
def Obligations.EncodeAfterDecodeClearsUnusedBits : Prop :=
  ∀ (u : Config.UnrecWidth) (w : Word),
    (encodeWord u (instrOfWord u w)).toNat =
      w.toNat % (if cw u (BitVec.ofNat 6 w.toNat) = 13 then 16777216 else 65536)

/-- Decision D6 (R70): words that differ only in unused bits decode alike, and a decoded instruction is always
well-formed. -/
def Obligations.UnusedBitsDoNotChangeTheInstruction : Prop :=
  ∀ (u : Config.UnrecWidth) (w v : Word),
    (instrOfWord u w).wellFormed u = true ∧
    (w.toNat % 16777216 = v.toNat % 16777216 → instrOfWord u w = instrOfWord u v) ∧
    (w.toNat % 65536 = v.toNat % 65536 → w.toNat % 64 = 49 ∨ w.toNat % 64 = 55 →
      instrOfWord u w = instrOfWord u v)

/-- Words written out in `95_test_vectors.md` part 2.2 decode to what that table says. -/
def Obligations.WordsOfTheTestVectorsDecode : Prop :=
  decodeInstr .bits13 [0x07#8, 0x50#8, 0x01#8, 0x00#8] = .ok (.loadConst 0#5 42#13) ∧
  decodeInstr .bits13 [0x31#8, 0x51#8, 0x00#8, 0x00#8] = .ok (.readMem 4#5 10#5) ∧
  decodeInstr .bits13 [0xF3#8, 0x00#8, 0x20#8] = .ok (.writeMem 3#5 1024#13) ∧
  decodeInstr .bits13 [0xB7#8, 0x08#8, 0x00#8, 0x00#8] = .ok (.unaryMinus 2#5 1#5) ∧
  decodeInstr .bits13 [0xF2#8, 0x40#8, 0x01#8, 0x00#8] = .ok (.unrecognized 50#6 3#5 40#13)

/-! ### The step -/

/-- R102: while running, a step is the execution of the instruction that the fetched chunk decodes to; the arm
itself advances `pc` or records the fault, and the step adds nothing around it. -/
def Obligations.StepExecutesTheDecodedInstruction : Prop :=
  ∀ (s : State) (i : Instr), s.fault = none → s.pc < s.stream.length →
    decodeInstr s.params.cwUnrec s.fetch = .ok i → step s = exec i s

/-- R101, R113 in the form log entry 5 chooses: a faulted machine and a done machine have no step. -/
def Obligations.NoStepUnlessRunning : Prop :=
  (∀ (s : State) (r : FaultRecord), s.fault = some r → step s = .fault (.runFaulted r)) ∧
  (∀ s : State, s.fault = none → s.stream.length ≤ s.pc → step s = .refused .runDone)

/-- R45, R46: the fetch takes `min(4, L - pc)` bytes at `pc`, and the instruction is that of their little-endian
word, missing bytes zero. Fewer than 4 bytes come only at the last fetch, and only when `L mod 4` is not 0. -/
def Obligations.FetchIsLittleEndianAtPc : Prop :=
  ∀ s : State, s.pc < s.stream.length →
    s.fetch.length = min 4 (s.stream.length - s.pc) ∧ 1 ≤ s.fetch.length ∧
    (s.pc % 4 = 0 → s.fetch.length < 4 → s.stream.length % 4 ≠ 0 ∧ s.stream.length ≤ s.pc + 4) ∧
    (∀ j, j < s.fetch.length → s.fetch[j]? = s.stream[s.pc + j]?) ∧
    s.nextInstr = instrOfWord s.params.cwUnrec (BitVec.ofNat 32
      ((s.stream.getD s.pc 0#8).toNat + (s.stream.getD (s.pc + 1) 0#8).toNat * 256 +
        (s.stream.getD (s.pc + 2) 0#8).toNat * 65536 + (s.stream.getD (s.pc + 3) 0#8).toNat * 16777216))

/-- Every instruction runs and every running machine has a step: no word is illegal and none is refused. -/
def Obligations.EveryInstructionAnswersANextState : Prop :=
  (∀ (i : Instr) (s : State), ∃ t, exec i s = .next t) ∧
  (∀ s : State, s.running = true → ∃ t, step s = .next t)

/-- R103: a completed step moves `pc` by exactly 4 whatever was decoded, overshooting the end of the stream by 3
bytes at most; the only other outcome is a recorded fault, with `pc` where it was (R26). -/
def Obligations.CompletedStepAdvancesPcByFour : Prop :=
  ∀ s t : State, step s = .next t →
    (t.fault = none ∧ t.pc = s.pc + 4 ∧ t.pc ≤ s.stream.length + 3) ∨ (t.fault ≠ none ∧ t.pc = s.pc)

/-- R105: the last step of a stream with `L mod 4` not 0 fetches `L mod 4` bytes and is executed like the step of the
zero-padded stream, with its full effect; it is no error, shows on `trunc`, and leaves `pc` beyond the end. -/
def Obligations.ShortFinalChunkRunsZeroPadded : Prop :=
  ∀ (s padded : State), s.fault = none → s.pc % 4 = 0 → s.pc < s.stream.length → s.stream.length < s.pc + 4 →
    padded = { s with stream := s.stream ++ List.replicate (s.pc + 4 - s.stream.length) 0#8 } →
    s.trunc = true ∧ s.fetch.length = s.stream.length % 4 ∧ ∃ t, step s = .next t ∧ step padded = .next { t with stream := padded.stream } ∧
      (t.fault = none → t.pc = 4 * ((s.stream.length + 3) / 4) ∧ s.stream.length < t.pc)

/-- Fault entry, decisions D2 to D4 at R172, R179, R180: a step that records a fault changes nothing else; the
record holds the offset of the offending instruction, its cause and its address, which is not below `CAPACITY`. The
ports show it as cause 2 with that offset and index (R29, decision D3). -/
def Obligations.FaultIsPreciseAndNamesItsAddress : Prop :=
  ∀ (s t : State) (r : FaultRecord), step s = .next t → t.fault = some r →
    t = { s with fault := some r } ∧ r.cause = .memory ∧ r.offset = s.pc ∧
      s.params.capacity ≤ r.index.toNat ∧
      ((∃ b c, s.nextInstr = .readMem b c ∧ r.index.toNat = c.toNat) ∨
       (∃ b c, s.nextInstr = .writeMem b c ∧ r.index.toNat = c.toNat)) ∧
      t.causeCode = 2#2 ∧ t.faultOffset = s.pc ∧ t.faultIndex = r.index ∧
      t.status.cause = 2#2 ∧ t.status.offset = s.pc ∧ t.status.index = r.index ∧ t.status.faulted = true

/-- R102: a completed step writes the one register or the one cell that its instruction names, and `pc`, and nothing
else: the register of the `b` field of `nextInstr`, or for `WRITE_MEM` the cell `wideAddress c`, the function the
meaning uses. A step whose address is not below `CAPACITY` writes the fault record alone (decisions D2 to D4). -/
def Obligations.StepWritesAtMostOneRegisterOrCell : Prop :=
  ∀ s t : State, step s = .next t →
    match s.nextInstr with
    | .loadConst b _ => wroteOnlyReg s t b
    | .readMem b c =>
      (narrowAddress c < s.params.capacity → wroteOnlyReg s t b) ∧
        (s.params.capacity ≤ narrowAddress c → trappedOnAddress s t (narrowAddress c))
    | .writeMem _ c =>
      (wideAddress c < s.params.capacity → wroteOnlyCell s t (wideAddress c)) ∧
        (s.params.capacity ≤ wideAddress c → trappedOnAddress s t (wideAddress c))
    | .unaryMinus b _ => wroteOnlyReg s t b
    | .unrecognized _ _ _ => wroteNothing s t

/-- R32: a step that changes a cell ran a `WRITE_MEM` and changed the cell it names. -/
def Obligations.OnlyWriteMemChangesACell : Prop :=
  ∀ (s t : State) (k : Nat), step s = .next t → t.cell k ≠ s.cell k →
    ∃ b c, s.nextInstr = .writeMem b c ∧ c.toNat = k

/-- R24: a step that changes a register ran an instruction whose `b` field names it, and not a `WRITE_MEM` or
an unrecognised opcode. -/
def Obligations.OnlyTheNamedDestinationRegisterChanges : Prop :=
  ∀ (s t : State) (j : NarrowField), step s = .next t → t.reg j ≠ s.reg j →
    (∃ c, s.nextInstr = .loadConst j c) ∨ (∃ c, s.nextInstr = .readMem j c) ∨
      (∃ c, s.nextInstr = .unaryMinus j c)

/-! ### The instructions -/

/-- R120: the encoding of `LOAD_CONST b, c`, and its effect: it completes from every state with `x[b]` the
constant and everything else but `pc` unchanged. `XLEN` is 14 or more, the spec's range. -/
def Obligations.LoadConstWritesItsConstant : Prop :=
  ∀ (u : Config.UnrecWidth) (b : NarrowField) (c : WideField) (s : State), 14 ≤ s.params.xlen →
    (encodeWord u (.loadConst b c)).toNat = 7 + b.toNat * 64 + c.toNat * 2048 ∧
    ∃ t, exec (.loadConst b c) s = .next t ∧ t.reg b = (c.toNat : Int) ∧ wroteOnlyReg s t b

/-- R121: the encoding of `READ_MEM b, c`, bits 31 to 16 ignored; below `CAPACITY` it completes with `x[b]` the
whole cell and everything else but `pc` unchanged; otherwise it records the fault and nothing else. That it fails
the run, and the form of the record, are the spec's decisions D2 to D4. -/
def Obligations.ReadMemCopiesItsCellOrFaults : Prop :=
  ∀ (u : Config.UnrecWidth) (b c : NarrowField) (s : State),
    (encodeWord u (.readMem b c)).toNat = 49 + b.toNat * 64 + c.toNat * 2048 ∧
    (∀ w : Word, w.toNat % 65536 = 49 + b.toNat * 64 + c.toNat * 2048 → instrOfWord u w = .readMem b c) ∧
    (c.toNat < s.params.capacity →
      ∃ t, exec (.readMem b c) s = .next t ∧ t.reg b = s.cell c.toNat ∧ wroteOnlyReg s t b) ∧
    (s.params.capacity ≤ c.toNat →
      ∃ t, exec (.readMem b c) s = .next t ∧ trappedOnAddress s t c.toNat)

/-- R122: the encoding of `WRITE_MEM b, c`; below `CAPACITY` it completes with cell `c` the whole register, every
other cell and everything else but `pc` unchanged; otherwise it records the fault and nothing else (the spec's
decisions D2 to D4). The address stored to is `wideAddress c`, the function the meaning uses. -/
def Obligations.WriteMemStoresItsRegisterOrFaults : Prop :=
  ∀ (u : Config.UnrecWidth) (b : NarrowField) (c : WideField) (s : State), s.mem.wf = true →
    (encodeWord u (.writeMem b c)).toNat = 51 + b.toNat * 64 + c.toNat * 2048 ∧
    wideAddress c = c.toNat ∧
    (wideAddress c < s.params.capacity →
      ∃ t, exec (.writeMem b c) s = .next t ∧ t.cell (wideAddress c) = s.reg b ∧
        wroteOnlyCell s t (wideAddress c)) ∧
    (s.params.capacity ≤ wideAddress c →
      ∃ t, exec (.writeMem b c) s = .next t ∧ trappedOnAddress s t (wideAddress c))

/-- R130: the encoding of `UNARY_MINUS b, c`, bits 31 to 16 ignored; it completes from every state with `x[b]`
the negation of what `x[c]` held before, also for `b = c`, and everything else but `pc` unchanged. On every value
of `XLEN` bits but the most negative the negation is exact. -/
def Obligations.UnaryMinusNegatesItsRegister : Prop :=
  ∀ (u : Config.UnrecWidth) (b c : NarrowField) (s : State), 14 ≤ s.params.xlen →
    (encodeWord u (.unaryMinus b c)).toNat = 55 + b.toNat * 64 + c.toNat * 2048 ∧
    (∀ w : Word, w.toNat % 65536 = 55 + b.toNat * 64 + c.toNat * 2048 → instrOfWord u w = .unaryMinus b c) ∧
    ∃ t, exec (.unaryMinus b c) s = .next t ∧ wroteOnlyReg s t b ∧
      t.reg b = neg s.params.xlen (s.reg c) ∧
      (-(2 ^ (s.params.xlen - 1) : Int) < s.reg c → s.reg c < 2 ^ (s.params.xlen - 1) → t.reg b = -s.reg c)

/-- R104: a word with an unrecognised opcode decodes to the no-operation, which completes from every state,
changes no register, no cell and no fault state, makes no range check, and advances `pc` by 4. -/
def Obligations.UnrecognizedOpcodeOnlyAdvancesPc : Prop :=
  (∀ (a : Opcode) (b : NarrowField) (c : WideField) (s : State),
    ∃ t, exec (.unrecognized a b c) s = .next t ∧ wroteNothing s t) ∧
  (∀ s : State, s.running = true → classify (unpack s.params.cwUnrec (wordOf s.fetch)).a = .unrecognized →
    ∃ t, step s = .next t ∧ wroteNothing s t)

/-- The negation law, decisions D1 and D23 at R131: two's complement in `XLEN` bits, the most negative value
wrapping to itself, exact on the range a run can reach. -/
def Obligations.NegationIsTwosComplement : Prop :=
  ∀ (n : Nat) (v : Int), 1 ≤ n → -(2 ^ (n - 1) : Int) ≤ v → v < 2 ^ (n - 1) →
    ((2 ^ n - v % 2 ^ n) % 2 ^ n < (2 ^ (n - 1) : Int) → neg n v = (2 ^ n - v % 2 ^ n) % 2 ^ n) ∧
    ((2 ^ (n - 1) : Int) ≤ (2 ^ n - v % 2 ^ n) % 2 ^ n → neg n v = (2 ^ n - v % 2 ^ n) % 2 ^ n - 2 ^ n) ∧
    neg n (-(2 ^ (n - 1))) = -(2 ^ (n - 1)) ∧
    (14 ≤ n → SmallValue v → neg n v = -v)

/-- Derived in the spec at R132: negation is its own inverse on every reachable value, and only 0 negates
to 0. -/
def Obligations.NegationIsAnInvolutionOnReachableValues : Prop :=
  ∀ (n : Nat) (v : Int), 14 ≤ n → SmallValue v → neg n (neg n v) = v ∧ (neg n v = 0 ↔ v = 0)

/-- Derived in the spec at R133: two negations copy a register. -/
def Obligations.TwoNegationsCopyARegister : Prop :=
  ∀ (s : State) (src tmp dst : NarrowField), 14 ≤ s.params.xlen → SmallValue (s.reg src) →
    ∃ t1 t2, exec (.unaryMinus tmp src) s = .next t1 ∧ exec (.unaryMinus dst tmp) t1 = .next t2 ∧
      t2.reg dst = s.reg src ∧ (tmp ≠ dst → t2.reg tmp = -s.reg src)

/-- R53: a `READ_MEM` after a `WRITE_MEM` to the same cell, with any other step in between that leaves the cell
alone, returns the value written. -/
def Obligations.ReadMemReturnsTheLatestWrite : Prop :=
  ∀ (s : State) (b d : NarrowField) (c : NarrowField), s.mem.wf = true → c.toNat < s.params.capacity →
    ∃ t, exec (.writeMem b (c.setWidth 13)) s = .next t ∧
      ∀ t' : State, t'.cell c.toNat = t.cell c.toNat → t'.params = t.params →
        ∃ t'', exec (.readMem d c) t' = .next t'' ∧ t''.reg d = s.reg b

/-- Derived in the spec at R42: with 32 cells or more a `READ_MEM` never faults, with 8192 or more a `WRITE_MEM`
never does, and no step changes a cell from 8192 on. -/
def Obligations.ReachOfTheAddressFields : Prop :=
  (∀ (s : State) (b c : NarrowField), 32 ≤ s.params.capacity →
    ∃ t, exec (.readMem b c) s = .next t ∧ t.fault = s.fault) ∧
  (∀ (s : State) (b : NarrowField) (c : WideField), 8192 ≤ s.params.capacity →
    ∃ t, exec (.writeMem b c) s = .next t ∧ t.fault = s.fault) ∧
  (∀ (s t : State) (k : Nat), step s = .next t → 8192 ≤ k → t.cell k = s.cell k)

/-! ### Invariants -/

/-- Every step keeps the memory canonical and within `CAPACITY` cells. -/
def Obligations.StepKeepsMemoryCanonical : Prop :=
  ∀ s t : State, s.MemInv → step s = .next t → t.MemInv

/-- Derived in the spec at R25, for any `XLEN` of 14 or more: every step keeps every value in -8191 to 8191. The
canonical memory, which the last write relies on, is an invariant of its own (`StepKeepsMemoryCanonical`). -/
def Obligations.StepKeepsValuesInRange : Prop :=
  ∀ s t : State, 14 ≤ s.params.xlen → s.mem.wf = true → s.SmallValues → step s = .next t → t.SmallValues

/-- R26, with the bound of R27: every step keeps `pc` a multiple of 4 that is at most `4 * ceil(L / 4)`. -/
def Obligations.StepKeepsPcAlignedAndBounded : Prop :=
  ∀ s t : State, s.PcInv → step s = .next t → t.PcInv

/-- Derived from R29, R171, R179: every step keeps the fault record sound; cause 1 is never recorded. -/
def Obligations.StepKeepsTheFaultRecordSound : Prop :=
  ∀ s t : State, s.FaultInv → step s = .next t → t.FaultInv

/-- R33 and R22: no step changes the stream or a parameter. -/
def Obligations.StepKeepsStreamAndParameters : Prop :=
  ∀ s t : State, step s = .next t → sameInputs s t

/-- The invariants hold after reset, of the reset state itself and of every fresh run. -/
def Obligations.InvariantsHoldAfterReset : Prop :=
  (State.reset.MemInv ∧ State.reset.SmallValues ∧ State.reset.PcInv ∧ State.reset.FaultInv) ∧
  ∀ (p : Config.Params) (stream : List Byte),
    (State.fresh p stream).MemInv ∧ (State.fresh p stream).SmallValues ∧
      (State.fresh p stream).PcInv ∧ (State.fresh p stream).FaultInv

/-- R34: after reset every register and every cell is 0, `pc` is 0 and there is no fault, which a port shows
as cause 0, offset 0, index 0; the fault record is decision D3, and the inputs of `State.reset` are the model's
(log entry 2). -/
def Obligations.ResetLeavesEverythingZero : Prop :=
  ∀ (p : Config.Params) (stream : List Byte) (s : State), s = State.reset ∨ s = State.fresh p stream →
    (∀ i, s.reg i = 0) ∧ (∀ k, s.cell k = 0) ∧ s.pc = 0 ∧ s.fault = none ∧
      s.causeCode = 0#2 ∧ s.faultOffset = 0 ∧ s.faultIndex = 0#13

/-! ### Runs -/

/-- R107, R207 (derived there): from every state the run ends, after at most `ceil((L - pc) / 4)` steps, `done` or
`faulted`. -/
def Obligations.EveryRunEnds : Prop :=
  ∀ s : State, s.runToEnd.running = false ∧ (s.runToEnd.done = true ∨ s.runToEnd.faulted = true)

/-- Derived in the spec at R106, R107: `n` steps without a fault move `pc` by `4 * n`, so the `n`-th instruction
executed is the one at offset `4 * n`. -/
def Obligations.NStepsAdvancePcByFourN : Prop :=
  ∀ (n : Nat) (s t : State), State.stepN n s = .next t → t.fault = none → t.pc = s.pc + 4 * n

/-- Derived in the spec at R107, R109, R184: a run that ends normally has executed the whole stream, short chunk
included. -/
def Obligations.NormalEndHasExecutedTheWholeStream : Prop :=
  ∀ (p : Config.Params) (stream : List Byte), safeRun p stream →
    (State.fresh p stream).runToEnd.pc = 4 * ((stream.length + 3) / 4) ∧
      State.stepN ((stream.length + 3) / 4) (State.fresh p stream) = .next (State.fresh p stream).runToEnd

/-- Decision D4 at R113, R181: a recorded fault is terminal; no steps change the machine, and a reset is what clears
it. That the dump is refused while `faulted` is decision D18 (R141; log entry 14). -/
def Obligations.FaultIsTerminalUntilReset : Prop :=
  ∀ (s : State) (r : FaultRecord) (n : Nat) (start stop : Int), s.fault = some r →
    s.runFor n = s ∧ (∀ t, step s ≠ .next t) ∧ s.dump start stop = .error .notDone ∧
      s.restart = State.fresh s.params s.stream

/-- R58 of the memory, R145 of the final state: the final registers, memory, `pc` and fault record of a run, and its
dump, are a function of the stream and `CAPACITY` alone: no legal `XLEN`, `PCW` or `CW_UNREC` can be told apart. -/
def Obligations.RunIsAFunctionOfStreamAndCapacity : Prop :=
  ∀ (p q : Config.Params) (stream : List Byte), p.legal = true → q.legal = true → p.capacity = q.capacity →
    sameArchState (State.fresh p stream).runToEnd (State.fresh q stream).runToEnd ∧
      ∀ start stop : Int,
        (State.fresh p stream).runToEnd.dump start stop = (State.fresh q stream).runToEnd.dump start stop

/-- Derived in the spec at R25: on values in the reachable range, a step does the same for every `XLEN` of 14 or
more. -/
def Obligations.WidthOfValuesIsUnobservable : Prop :=
  ∀ (s t : State) (n : Nat), 14 ≤ s.params.xlen → 14 ≤ n → s.SmallValues → step s = .next t →
    step (s.withXlen n) = .next (t.withXlen n)

/-- Decision D5 at R69: `CW_UNREC` never affects a step. -/
def Obligations.UnrecognizedWidthIsUnobservable : Prop :=
  ∀ (s t : State) (u : Config.UnrecWidth), step s = .next t → step (s.withUnrec u) = .next (t.withUnrec u)

/-- Derived in the spec at R132: every integer of the range -8191 to 8191 is made by some program. -/
def Obligations.EveryValueOfTheRangeIsReachable : Prop :=
  ∀ k : Int, SmallValue k → ∃ stream : List Byte,
    safeRun Config.defaultParams stream ∧ (State.fresh Config.defaultParams stream).runToEnd.reg 0#5 = k

/-! ### The host interface -/

/-- R30 (decision D11): exactly one of `done`, `faulted`, `running` holds in every state, each by its own equation over
`fault`, `pc` and `L`, and the status port shows them, `trunc` and `pc` (R140, decision D10). -/
def Obligations.ExactlyOneConditionHolds : Prop :=
  ∀ s : State,
    ((s.done = true ∧ s.faulted = false ∧ s.running = false) ∨
     (s.done = false ∧ s.faulted = true ∧ s.running = false) ∨
     (s.done = false ∧ s.faulted = false ∧ s.running = true)) ∧
    (s.status.done = true ↔ s.fault = none ∧ s.stream.length ≤ s.pc) ∧
    (s.status.faulted = true ↔ s.fault ≠ none) ∧
    (s.status.running = true ↔ s.fault = none ∧ s.pc < s.stream.length) ∧
    (s.status.trunc = true ↔ s.stream.length % 4 ≠ 0) ∧ s.status.pc = s.pc ∧
    s.status.done = s.done ∧ s.status.faulted = s.faulted ∧ s.status.running = s.running ∧ s.status.trunc = s.trunc

/-- R141 (decision D18): when `done`, the dump of a range inside memory is one row per address, in ascending order,
with the final content. -/
def Obligations.DumpGivesOneRowPerAddress : Prop :=
  ∀ (s : State) (start stop : Nat), s.done = true → start ≤ stop → stop < s.params.capacity →
    ∃ rows, s.dump start stop = .ok rows ∧ rows.length = stop - start + 1 ∧
      ∀ j, j < rows.length → rows[j]? = some (start + j, s.cell (start + j))

/-- R141, R142: in whatever phase the session is, a dump is refused unless `done` (decision D18); an empty range gives
no row, and a range with an address outside memory is refused whole with code 3 and its first such address (decision
D14; log entry 14). -/
def Obligations.DumpRefusesWholeRequests : Prop :=
  ∀ (s : State) (start stop : Int),
    (∀ h : Session, h.machine = s →
      h.handle (.dump start stop) = (s.dump start stop).map fun rows => (h, .rows rows)) ∧
    (s.done = false → s.dump start stop = .error .notDone) ∧
    (s.done = true → stop < start → s.dump start stop = .ok []) ∧
    (s.done = true → start ≤ stop → start < 0 ∨ (s.params.capacity : Int) ≤ stop →
      ∃ k, s.dump start stop = .error (.outOfRangeDump k) ∧ (PortRefusal.outOfRangeDump k).code = some 3#2 ∧
        start ≤ k ∧ k ≤ stop ∧ (k < 0 ∨ (s.params.capacity : Int) ≤ k) ∧
        ∀ j, start ≤ j → j < k → 0 ≤ j ∧ j < (s.params.capacity : Int))

/-- R144: in whatever phase the session is, register inspection gives the register's value once the run has ended,
`done` or `faulted`, and is refused while `running`. The port is decision D10, and when it may be used is decision D18
(log entry 14). -/
def Obligations.InspectionReadsARegisterAfterTheRun : Prop :=
  ∀ (h : Session) (i : NarrowField),
    (h.machine.done = true ∨ h.machine.faulted = true →
      h.machine.inspect i = .ok (h.machine.reg i) ∧
        h.handle (.inspect i) = .ok (h, .value (h.machine.reg i))) ∧
    (h.machine.running = true →
      h.machine.inspect i = .error .notEnded ∧ h.handle (.inspect i) = .error .notEnded)

/-- R27 (decision D8): a stream the host interface accepts for a `pc` of `w` bits never makes `pc` wrap. -/
def Obligations.AcceptedStreamKeepsPcWithinItsWidth : Prop :=
  ∀ (s : State) (w : Nat), s.params.pcw = some w → s.params.streamFits s.stream.length = true → s.PcInv →
    s.pc < 2 ^ w

/-- R37, R140, R200 with the phases of log entry 7: whatever a session did before, configure, reset and run give
the run of the fresh state; a stream too long is refused (decision D8), and so is a run without a reset of its own,
before the first run or after an ended one. The reset event is decision D24, and that a run without it is refused with
`needsReset` is the model's choice. -/
def Obligations.HostRunStartsFresh : Prop :=
  (∀ (h : Session) (p : Config.Params) (stream : List Byte), p.legal = true →
    p.streamFits stream.length = true →
    ∃ h1 h2 h3, h.handle (.configure p stream) = .ok (h1, .nothing) ∧
      h1.handle .run = .error .needsReset ∧
      h1.handle .reset = .ok (h2, .nothing) ∧
      h2.handle .run = .ok (h3, .status h3.machine.status) ∧
      h3.machine = (State.fresh p stream).runToEnd ∧
      h3.handle .run = .error .needsReset) ∧
  (∀ (h : Session) (p : Config.Params) (stream : List Byte), p.legal = true →
    p.streamFits stream.length = false →
    h.handle (.configure p stream) = .error (.streamTooLong stream.length))

/-- R24, R32, R140 (decision D10): no move of the host but reset and run changes the machine, its inputs and so its
condition included, and the reading moves change nothing at all. That a `configure` waits for the reset is read from
R109 (log entry 15). -/
def Obligations.HostCannotWriteTheState : Prop :=
  ∀ (h h' : Session) (q : Request) (r : Response), h.handle q = .ok (h', r) → q ≠ .reset → q ≠ .run →
    h'.machine = h.machine ∧ ((∀ p stream, q ≠ .configure p stream) → h' = h)

/-! ### The assembler -/

/-- R147, with R74: a line `MNEMONIC B C` in any letter case, with any two integers in base 10, gives one log entry
whose bytes are `encode` of the mnemonic's opcode, `B` and `C`. Signed literals of any magnitude, reduced by floor
modulus, are decision D13 (R77), and the masked fields of the log entry are decision D20 (R150; log entry 14). -/
def Obligations.InstructionLineAssemblesToItsEncoding : Prop :=
  ∀ (m : Mnemonic) (token : Text) (b c : Int), token.map Char.toUpper = m.text →
    ∃ e, assembleLine (token ++ ' ' :: intText b ++ ' ' :: intText c) = .ok (some e) ∧
      e.operation = m ∧ e.rawBytes = encode .bits13 m.opcode b c ∧ e.a.toNat = m.opcode ∧
      (e.b.toNat : Int) = b % 32 ∧
      (e.c.toNat : Int) = c % (if m = .loadConst ∨ m = .writeMem then 8192 else 32)

/-- R74: blank lines and comment lines, indented or not, produce nothing. Which characters are white space,
`Char.isWhitespace`, is the model's choice (log entry 8). -/
def Obligations.BlankAndCommentLinesProduceNothing : Prop :=
  ∀ pre rest : Text, (∀ ch ∈ pre, ch.isWhitespace = true) →
    assembleLine pre = .ok none ∧ assembleLine (pre ++ '#' :: rest) = .ok none

/-- R146: of a line that is not blank and whose first character after white space is not `#`, an unknown mnemonic is a
syntax error naming it, and a known one with other than two arguments is an argument-count error naming it and the
count 2. That an argument that is no integer is a syntax error naming it is decision D13; that `B` is named before `C`
is the model's choice (log entry 9), and so is which characters separate tokens (log entry 8). -/
def Obligations.BadLinesFailWithTheirErrorClass : Prop :=
  ∀ (line token : Text) (args : List Text), tokensOf line = token :: args →
    (line.dropWhile Char.isWhitespace).head? ≠ some '#' →
    (mnemonicOf token = none → assembleLine line = .error (.syntaxError token)) ∧
    (∀ m, mnemonicOf token = some m → args.length ≠ 2 →
      assembleLine line = .error (.argumentCount m 2)) ∧
    (∀ m tb tc, mnemonicOf token = some m → args = [tb, tc] → parseInt tb = none →
      assembleLine line = .error (.syntaxError tb)) ∧
    (∀ m tb tc b, mnemonicOf token = some m → args = [tb, tc] → parseInt tb = some b → parseInt tc = none →
      assembleLine line = .error (.syntaxError tc))

/-- Decision D12 at R148: the first failing line ends the assembly with its error and its content, and no file
is written. -/
def Obligations.FirstBadLineAbortsTheAssembly : Prop :=
  ∀ (eol : CsvEol) (src bad : Text) (before after : List Text) (log : List LogEntry) (e : AsmErrorClass),
    linesOf src = before ++ bad :: after → assembleLines before = .ok log → assembleLine bad = .error e →
    assemble src = .error { kind := e, line := bad } ∧
      assembleFiles eol src = .error { kind := e, line := bad }

/-- R79: source order is instruction order: assembling one source after another appends the entries, the bytes
and nothing else. -/
def Obligations.SourceOrderIsInstructionOrder : Prop :=
  ∀ (xs ys : List Text) (lx ly : List LogEntry), assembleLines xs = .ok lx → assembleLines ys = .ok ly →
    assembleLines (xs ++ ys) = .ok (lx ++ ly) ∧ binaryOf (lx ++ ly) = binaryOf lx ++ binaryOf ly

/-- R79, R147, R149: an assembly succeeds exactly when every line of the source that is neither blank nor a comment
does, and its log is the entries of those lines, in order, one for each. The two files are the binary and the log; the
binary is 4 bytes per instruction line, the bytes of line `k` at offset `4 * k`. The lines are the source cut at its
line feeds (log entry 8). -/
def Obligations.BinaryHasFourBytesPerInstruction : Prop :=
  ∀ (src : Text) (log : List LogEntry),
    (['\n'].intercalate (linesOf src) = src ∧ ∀ line ∈ linesOf src, '\n' ∉ line) ∧
    (assemble src = .ok log ↔ (instructionLines src).map assembleLine = log.map fun e => .ok (some e)) ∧
    (assemble src = .ok log →
      (∀ eol, assembleFiles eol src = .ok (binaryOf log, logCsv eol log)) ∧
      log.length = (instructionLines src).length ∧
      (binaryOf log).length = 4 * (instructionLines src).length ∧
      ∀ k e, log[k]? = some e → ((binaryOf log).drop (4 * k)).take 4 = e.rawBytes ∧
        ∃ line, (instructionLines src)[k]? = some line ∧ assembleLine line = .ok (some e))

/-- R152: every entry of an assembled source has one of the four opcodes, the one of its mnemonic, and its bytes
are the encoding of its own fields, so unused bits are 0. -/
def Obligations.AssemblerEmitsOnlyRecognisedOpcodes : Prop :=
  ∀ (src : Text) (log : List LogEntry) (e : LogEntry), assemble src = .ok log → e ∈ log →
    recognized e.a = true ∧ e.a.toNat = e.operation.opcode ∧
      e.rawBytes = encode .bits13 e.a.toNat e.b.toNat e.c.toNat

/-- Derived in the spec at R78: a word with a recognised opcode has an assembly spelling, which assembles to that
word with its unused bits cleared; any other word has none. -/
def Obligations.DisassemblyAssemblesBack : Prop :=
  ∀ (u : Config.UnrecWidth) (w : Word),
    (recognized (BitVec.ofNat 6 w.toNat) = false → disassemble u w = none) ∧
    (recognized (BitVec.ofNat 6 w.toNat) = true →
      ∃ line e, disassemble u w = some line ∧ assembleLine line = .ok (some e) ∧
        e.rawBytes = encodeInstr u (instrOfWord u w))
end

