-- ==== Sys2Proof/Laws/Assembler.lean ====
section
/-!
SUPPORT. What the assembler does with a line that is neither blank nor a comment.
-/

namespace Sys2Proof.Machine

/-- Leading white space does not change the tokens of a line (R74). -/
@[simp] theorem tokensOf_dropWhile (line : Text) : tokensOf (line.dropWhile Char.isWhitespace) = tokensOf line := by
  induction line with
  | nil => rfl
  | cons c rest ih =>
    cases h : c.isWhitespace with
    | true =>
      rw [List.dropWhile_cons_of_pos h, ih]
      simp [tokensOf, pieces, h]
    | false => rw [List.dropWhile_cons_of_neg (by simp [h])]

/-- A line that has tokens and is no comment is assembled from its tokens (R146). -/
theorem assembleLine_of_tokens (line : Text) (ht : tokensOf line ≠ [])
    (hc : (line.dropWhile Char.isWhitespace).head? ≠ some '#') : assembleLine line = assembleTokens (tokensOf line) := by
  rw [← tokensOf_dropWhile] at ht ⊢
  unfold assembleLine
  split
  · next h => exact absurd (by rw [h]; rfl) ht
  · next h => rw [h] at hc; exact absurd rfl hc
  · rfl

end Sys2Proof.Machine
end

