-- ==== Sys2Proof/Laws/Codec.lean ====
section
/-!
SUPPORT. The codec in numbers: what packing, slicing and the byte order are on naturals.
-/

namespace Sys2Proof

/-- Masking keeps the residue. -/
theorem keepLow_toNat (n : Nat) (c : WideField) (h : n ≤ 13) : (keepLow n c).toNat = c.toNat % 2 ^ n := by
  have h1 : c.toNat % 2 ^ n < 2 ^ n := Nat.mod_lt _ (Nat.two_pow_pos n)
  have h2 : 2 ^ n ≤ 2 ^ 13 := Nat.pow_le_pow_right (by decide) h
  simp only [keepLow, BitVec.toNat_setWidth]
  exact Nat.mod_eq_of_lt (by omega)

/-- The width of a `c` field is 5 or 13. -/
theorem cw_cases (u : Config.UnrecWidth) (a : Opcode) : cw u a = 5 ∨ cw u a = 13 := by
  unfold cw
  split
  · exact .inr rfl
  · split
    · exact .inl rfl
    · cases u
      · exact .inr rfl
      · exact .inl rfl

theorem cw_le (u : Config.UnrecWidth) (a : Opcode) : cw u a ≤ 13 := by
  rcases cw_cases u a with h | h <;> omega

/-- Four little-endian bytes as a number. -/
theorem wordOf_toNat (bytes : List Byte) :
    (wordOf bytes).toNat = (bytes.getD 0 0#8).toNat + (bytes.getD 1 0#8).toNat * 256 +
      (bytes.getD 2 0#8).toNat * 65536 + (bytes.getD 3 0#8).toNat * 16777216 := by
  have h0 := (bytes.getD 0 0#8).isLt
  have h1 := (bytes.getD 1 0#8).isLt
  have h2 := (bytes.getD 2 0#8).isLt
  simp only [wordOf, BitVec.toNat_append]
  rw [← Nat.shiftLeft_add_eq_or_of_lt h2, ← Nat.shiftLeft_add_eq_or_of_lt h1, ← Nat.shiftLeft_add_eq_or_of_lt h0]
  simp only [Nat.shiftLeft_eq]
  omega

/-- Splitting a word into bytes and joining them again gives the word. -/
theorem wordOf_bytesOf (w : Word) : wordOf (bytesOf w) = w := by
  apply BitVec.eq_of_toNat_eq
  have := w.isLt
  rw [wordOf_toNat]
  simp [bytesOf, Nat.shiftRight_eq_div_pow]
  omega

theorem unpack_a (u : Config.UnrecWidth) (w : Word) : (unpack u w).a.toNat = w.toNat % 64 := by
  simp [unpack]

theorem unpack_b (u : Config.UnrecWidth) (w : Word) : (unpack u w).b.toNat = w.toNat / 64 % 32 := by
  simp [unpack, bLow, Nat.shiftRight_eq_div_pow]

theorem unpack_c (u : Config.UnrecWidth) (w : Word) :
    (unpack u w).c.toNat = w.toNat / 2048 % 2 ^ cw u (unpack u w).a := by
  have h : (unpack u w).c = keepLow (cw u (unpack u w).a) (w.extractLsb' cLow 13) := rfl
  rw [h, keepLow_toNat _ _ (cw_le _ _)]
  rcases cw_cases u (unpack u w).a with h | h <;> rw [h] <;>
    simp [cLow, Nat.shiftRight_eq_div_pow]

/-- The three fields occupy disjoint bits, so `|` is `+` (R81). -/
theorem or_fields_toNat (a : Opcode) (b : NarrowField) (c : WideField) :
    (a.setWidth 32 ||| (b.setWidth 32 <<< 6) ||| (c.setWidth 32 <<< 11) : Word).toNat =
      a.toNat + b.toNat * 64 + c.toNat * 2048 := by
  have ha := a.isLt
  have hb := b.isLt
  have hc := c.isLt
  have eb : (b.setWidth 32 <<< 6 : Word).toNat = b.toNat <<< 6 := by
    simp [Nat.shiftLeft_eq]; omega
  have ec : (c.setWidth 32 <<< 11 : Word).toNat = c.toNat <<< 11 := by
    simp [Nat.shiftLeft_eq]; omega
  have ea : (a.setWidth 32 : Word).toNat = a.toNat := by simp; omega
  have eab : (a.setWidth 32 ||| (b.setWidth 32 <<< 6) : Word).toNat = b.toNat * 64 + a.toNat := by
    rw [BitVec.toNat_or, ea, eb, Nat.or_comm, ← Nat.shiftLeft_add_eq_or_of_lt ha, Nat.shiftLeft_eq]
  have hab : b.toNat * 64 + a.toNat < 2 ^ 11 := by omega
  rw [BitVec.toNat_or, eab, ec, Nat.or_comm, ← Nat.shiftLeft_add_eq_or_of_lt hab, Nat.shiftLeft_eq]
  omega

/-- The packing formula as a sum. -/
theorem pack_toNat (u : Config.UnrecWidth) (f : Fields) :
    (pack u f).toNat = f.a.toNat + f.b.toNat * 64 + f.c.toNat % 2 ^ cw u f.a * 2048 := by
  rw [← keepLow_toNat (cw u f.a) f.c (cw_le u f.a)]
  exact or_fields_toNat f.a f.b (keepLow (cw u f.a) f.c)

end Sys2Proof
end

