-- ==== Sys2Proof/Laws/State.lean ====
section
/-!
SUPPORT. What each update of the state does to each field and to each reading, once.
-/

namespace Sys2Proof.Machine

@[simp] theorem advance_regs (s : State) : s.advance.regs = s.regs := rfl
@[simp] theorem advance_mem (s : State) : s.advance.mem = s.mem := rfl
@[simp] theorem advance_pc (s : State) : s.advance.pc = s.pc + 4 := rfl
@[simp] theorem advance_fault (s : State) : s.advance.fault = s.fault := rfl
@[simp] theorem advance_stream (s : State) : s.advance.stream = s.stream := rfl
@[simp] theorem advance_params (s : State) : s.advance.params = s.params := rfl
@[simp] theorem advance_reg (s : State) (i : NarrowField) : s.advance.reg i = s.reg i := rfl
@[simp] theorem advance_cell (s : State) (k : Nat) : s.advance.cell k = s.cell k := rfl

@[simp] theorem raise_regs (s : State) (e : Trap) : (s.raise e).regs = s.regs := rfl
@[simp] theorem raise_mem (s : State) (e : Trap) : (s.raise e).mem = s.mem := rfl
@[simp] theorem raise_pc (s : State) (e : Trap) : (s.raise e).pc = s.pc := rfl
@[simp] theorem raise_stream (s : State) (e : Trap) : (s.raise e).stream = s.stream := rfl
@[simp] theorem raise_params (s : State) (e : Trap) : (s.raise e).params = s.params := rfl
@[simp] theorem raise_reg (s : State) (e : Trap) (i : NarrowField) : (s.raise e).reg i = s.reg i := rfl
@[simp] theorem raise_cell (s : State) (e : Trap) (k : Nat) : (s.raise e).cell k = s.cell k := rfl
@[simp] theorem raise_fault (s : State) (e : Trap) :
    (s.raise e).fault = some { cause := e.cause, offset := s.pc, index := BitVec.ofNat 13 e.index } := rfl

@[simp] theorem fresh_regs (p : Config.Params) (st : List Byte) :
    (State.fresh p st).regs = Vector.replicate 32 0 := rfl
@[simp] theorem fresh_mem (p : Config.Params) (st : List Byte) : (State.fresh p st).mem = [] := rfl
@[simp] theorem fresh_pc (p : Config.Params) (st : List Byte) : (State.fresh p st).pc = 0 := rfl
@[simp] theorem fresh_fault (p : Config.Params) (st : List Byte) : (State.fresh p st).fault = none := rfl
@[simp] theorem fresh_stream (p : Config.Params) (st : List Byte) : (State.fresh p st).stream = st := rfl
@[simp] theorem fresh_params (p : Config.Params) (st : List Byte) : (State.fresh p st).params = p := rfl

@[simp] theorem withFetchWord_regs (s : State) (n w : Nat) : (s.withFetchWord n w).regs = s.regs := rfl
@[simp] theorem withFetchWord_mem (s : State) (n w : Nat) : (s.withFetchWord n w).mem = s.mem := rfl
@[simp] theorem withFetchWord_pc (s : State) (n w : Nat) : (s.withFetchWord n w).pc = s.pc := rfl
@[simp] theorem withFetchWord_fault (s : State) (n w : Nat) : (s.withFetchWord n w).fault = none := rfl
@[simp] theorem withFetchWord_stream (s : State) (n w : Nat) :
    (s.withFetchWord n w).stream = layChunk s.stream s.pc (tableBytes n w) := rfl
@[simp] theorem withFetchWord_params (s : State) (n w : Nat) : (s.withFetchWord n w).params = s.params := rfl

/-- Reading a register after register `b` was set. -/
theorem reg_set_same (s : State) (b : NarrowField) (v : Int) :
    ({ s with regs := s.regs.set b.toNat v b.isLt } : State).reg b = v := by
  simp [State.reg]

/-- Setting register `b` leaves the others alone. -/
theorem reg_set_other (s : State) (b j : NarrowField) (v : Int) (h : j ≠ b) :
    ({ s with regs := s.regs.set b.toNat v b.isLt } : State).reg j = s.reg j := by
  have hne : b.toNat ≠ j.toNat := fun e => h (BitVec.eq_of_toNat_eq e.symm)
  simp [State.reg, hne]

end Sys2Proof.Machine
end

