-- ==== Sys2Proof/Laws/Memory.lean ====
section
/-!
SUPPORT. The laws of the memory list: read after write, and that every write keeps the canonical form.
-/

namespace Sys2Proof.Machine

/-- A list whose addresses start at `low` lists no address below it. -/
theorem read_below_low (m : Memory) (low k : Nat) (h : Memory.wfFrom low m = true) (hk : k < low) :
    Memory.read m k = 0 := by
  induction m generalizing low with
  | nil => rfl
  | cons e rest ih =>
    obtain ⟨a, v⟩ := e
    simp only [Memory.wfFrom, Bool.and_eq_true, decide_eq_true_eq] at h
    have hne : k ≠ a := by omega
    simp only [Memory.read, hne, if_false]
    exact ih (a + 1) h.2 (by omega)

/-- A lower starting address is a weaker demand. -/
theorem wfFrom_mono (m : Memory) (low low' : Nat) (h : Memory.wfFrom low m = true) (hle : low' ≤ low) :
    Memory.wfFrom low' m = true := by
  cases m with
  | nil => rfl
  | cons e rest =>
    obtain ⟨a, v⟩ := e
    simp only [Memory.wfFrom, Bool.and_eq_true, decide_eq_true_eq] at h ⊢
    exact ⟨⟨by omega, h.1.2⟩, h.2⟩

/-- Reading back what was written, on a canonical list. -/
theorem read_write_same (m : Memory) (low k : Nat) (v : Int) (h : Memory.wfFrom low m = true) :
    (Memory.write m k v).read k = v := by
  induction m generalizing low with
  | nil => by_cases hv : v = 0 <;> simp [Memory.write, Memory.read, hv]
  | cons e rest ih =>
    obtain ⟨a, x⟩ := e
    simp only [Memory.wfFrom, Bool.and_eq_true, decide_eq_true_eq] at h
    have hrest := h.2
    rcases Nat.lt_trichotomy k a with hlt | heq | hgt
    · have hread := read_below_low rest (a + 1) k hrest (by omega)
      by_cases hv : v = 0 <;> simp [Memory.write, Memory.read, hlt, hv, Nat.ne_of_lt hlt, hread]
    · subst heq
      have hread := read_below_low rest (k + 1) k hrest (by omega)
      by_cases hv : v = 0 <;> simp [Memory.write, Memory.read, hv, hread]
    · have h1 : ¬k < a := by omega
      have h2 : k ≠ a := by omega
      simpa [Memory.write, Memory.read, h1, h2] using ih (a + 1) hrest

/-- A write leaves every other cell alone, on any list. -/
theorem read_write_other (m : Memory) (k j : Nat) (v : Int) (h : j ≠ k) :
    (Memory.write m k v).read j = m.read j := by
  induction m with
  | nil => by_cases hv : v = 0 <;> simp [Memory.write, Memory.read, hv, h]
  | cons e rest ih =>
    obtain ⟨a, x⟩ := e
    rcases Nat.lt_trichotomy k a with hlt | heq | hgt
    · by_cases hv : v = 0 <;> simp [Memory.write, Memory.read, hlt, hv, h]
    · subst heq
      by_cases hv : v = 0 <;> simp [Memory.write, Memory.read, hv, h]
    · have h1 : ¬k < a := by omega
      have h2 : k ≠ a := by omega
      simp only [Memory.write, h1, h2, if_false, Memory.read, ih]

/-- A write keeps the canonical form. -/
theorem wfFrom_write (m : Memory) (low k : Nat) (v : Int) (h : Memory.wfFrom low m = true) (hk : low ≤ k) :
    Memory.wfFrom low (Memory.write m k v) = true := by
  induction m generalizing low with
  | nil => by_cases hv : v = 0 <;> simp [Memory.write, Memory.wfFrom, hv, hk]
  | cons e rest ih =>
    obtain ⟨a, x⟩ := e
    have hall := h
    simp only [Memory.wfFrom, Bool.and_eq_true, decide_eq_true_eq] at h
    rcases Nat.lt_trichotomy k a with hlt | heq | hgt
    · by_cases hv : v = 0
      · simpa [Memory.write, hlt, hv] using hall
      · simp [Memory.write, Memory.wfFrom, hlt, hv, hk, h.1.2, h.2]
    · subst heq
      by_cases hv : v = 0
      · simpa [Memory.write, hv] using wfFrom_mono rest _ low h.2 (by omega)
      · simp [Memory.write, Memory.wfFrom, hv, hk, h.2]
    · have h1 : ¬k < a := by omega
      have h2 : k ≠ a := by omega
      simp [Memory.write, Memory.wfFrom, h1, h2, h.1.1, h.1.2, ih (a + 1) h.2 (by omega)]

/-- Every memory operation keeps `Memory.wf`. -/
theorem wf_write (m : Memory) (k : Nat) (v : Int) (h : m.wf = true) : (Memory.write m k v).wf = true :=
  wfFrom_write m 0 k v h (Nat.zero_le k)

/-- The reset memory is canonical. -/
theorem wf_reset : State.reset.mem.wf = true := rfl

/-- What a write can list: what was listed, and the cell written. -/
theorem mem_of_mem_write (m : Memory) (k : Nat) (v : Int) (e : Nat × Int) (h : e ∈ Memory.write m k v) :
    e ∈ m ∨ e = (k, v) := by
  induction m with
  | nil =>
    by_cases hv : v = 0
    · simp [Memory.write, hv] at h
    · simp [Memory.write, hv] at h; exact .inr h
  | cons d rest ih =>
    obtain ⟨a, x⟩ := d
    simp only [Memory.write] at h
    split at h
    · split at h
      · exact .inl h
      · rcases List.mem_cons.1 h with h | h
        · exact .inr h
        · exact .inl h
    · split at h
      · split at h
        · exact .inl (List.mem_cons_of_mem _ h)
        · rcases List.mem_cons.1 h with h | h
          · exact .inr h
          · exact .inl (List.mem_cons_of_mem _ h)
      · rcases List.mem_cons.1 h with h | h
        · exact .inl (h ▸ List.mem_cons_self)
        · rcases ih h with h | h
          · exact .inl (List.mem_cons_of_mem _ h)
          · exact .inr h

end Sys2Proof.Machine
end

