-- ==== Sys2Proof/Laws/Ops.lean ====
section
/-!
SUPPORT. For each shared operation, everything it can answer, once.
-/

namespace Sys2Proof.Machine

/-- A decoded register index passes the register check (R171). -/
@[simp] theorem checkReg_field (b : NarrowField) : checkReg b.toNat = .ok () := by
  simp [checkReg, b.isLt]

/-- A decoded index reads its register. -/
@[simp] theorem readReg_field (s : State) (b : NarrowField) : s.readReg b.toNat = .ok (s.reg b) := by
  have h : b.toNat < 32 := b.isLt
  simp [State.readReg, State.reg, h]

/-- A decoded index writes its register. -/
@[simp] theorem writeReg_field (s : State) (b : NarrowField) (v : Int) :
    s.writeReg b.toNat v = .ok { s with regs := s.regs.set b.toNat v b.isLt } := by
  have h : b.toNat < 32 := b.isLt
  simp [State.writeReg, h]

theorem memRead_of_lt (s : State) (k : Nat) (h : k < s.params.capacity) : s.memRead k = .ok (s.cell k) := by
  simp [State.memRead, h]

theorem memRead_of_ge (s : State) (k : Nat) (h : s.params.capacity ≤ k) :
    s.memRead k = .error { cause := .memory, index := k } := by
  simp [State.memRead, Nat.not_lt.2 h]

theorem memWrite_of_lt (s : State) (k : Nat) (v : Int) (h : k < s.params.capacity) :
    s.memWrite k v = .ok { s with mem := s.mem.write k v } := by
  simp [State.memWrite, h]

theorem memWrite_of_ge (s : State) (k : Nat) (v : Int) (h : s.params.capacity ≤ k) :
    s.memWrite k v = .error { cause := .memory, index := k } := by
  simp [State.memWrite, Nat.not_lt.2 h]

@[simp] theorem commit_ok (s t : State) : s.commit (.ok t) = .next t.advance := rfl
@[simp] theorem commit_error (s : State) (e : Trap) : s.commit (.error e) = .next (s.raise e) := rfl

/-- Everything `exec` can do, in the four shapes an instruction has: a register written, a cell written,
nothing written, or the memory check failed on a `READ_MEM` or `WRITE_MEM` address. -/
theorem exec_cases (i : Instr) (s : State) :
    (∃ b v, exec i s = .next ({ s with regs := s.regs.set (BitVec.toNat b) v (BitVec.isLt b) } : State).advance ∧
      ((∃ c, i = .loadConst b c ∧ v = constOperand s.params.xlen c) ∨
       (∃ c, i = .readMem b c ∧ c.toNat < s.params.capacity ∧ v = s.cell c.toNat) ∨
       (∃ c, i = .unaryMinus b c ∧ v = neg s.params.xlen (s.reg c)))) ∨
    (∃ b c, i = .writeMem b c ∧ c.toNat < s.params.capacity ∧
      exec i s = .next ({ s with mem := s.mem.write c.toNat (s.reg b) } : State).advance) ∨
    ((∃ a b c, i = .unrecognized a b c) ∧ exec i s = .next s.advance) ∨
    (∃ addr, s.params.capacity ≤ addr ∧ addr < 8192 ∧
      exec i s = .next (s.raise { cause := .memory, index := addr }) ∧
      ((∃ b c, i = .readMem b c ∧ addr = c.toNat) ∨ (∃ b c, i = .writeMem b c ∧ addr = c.toNat))) := by
  cases i with
  | loadConst b c =>
    exact .inl ⟨b, _, by simp [exec, execLoadConst, regOperand], .inl ⟨c, rfl, rfl⟩⟩
  | readMem b c =>
    by_cases h : c.toNat < s.params.capacity
    · refine .inl ⟨b, s.cell c.toNat, ?_, .inr (.inl ⟨c, rfl, h, rfl⟩)⟩
      simp [exec, execReadMem, regOperand, narrowAddress, memRead_of_lt s _ h, bind, Except.bind]
    · have h' : s.params.capacity ≤ c.toNat := Nat.not_lt.1 h
      refine .inr (.inr (.inr ⟨c.toNat, h', ?_, ?_, .inl ⟨b, c, rfl, rfl⟩⟩))
      · have := c.isLt; omega
      · simp [exec, execReadMem, regOperand, narrowAddress, memRead_of_ge s _ h', bind, Except.bind]
  | writeMem b c =>
    by_cases h : c.toNat < s.params.capacity
    · refine .inr (.inl ⟨b, c, rfl, h, ?_⟩)
      simp [exec, execWriteMem, regOperand, wideAddress, memWrite_of_lt s _ _ h, bind, Except.bind]
    · have h' : s.params.capacity ≤ c.toNat := Nat.not_lt.1 h
      refine .inr (.inr (.inr ⟨c.toNat, h', ?_, ?_, .inr ⟨b, c, rfl, rfl⟩⟩))
      · have := c.isLt; omega
      · simp [exec, execWriteMem, regOperand, wideAddress, memWrite_of_ge s _ _ h', bind, Except.bind]
  | unaryMinus b c =>
    refine .inl ⟨b, _, ?_, .inr (.inr ⟨c, rfl, rfl⟩)⟩
    simp [exec, execUnaryMinus, regOperand, bind, Except.bind]
  | unrecognized a b c =>
    exact .inr (.inr (.inl ⟨⟨a, b, c, rfl⟩, rfl⟩))

/-- When `step` gives a next state, the machine was running and that state is what the decoded instruction
gives. -/
theorem step_next (s t : State) (h : step s = .next t) :
    s.fault = none ∧ s.pc < s.stream.length ∧ exec s.nextInstr s = .next t := by
  unfold step at h
  split at h
  · cases h
  · next hf =>
    split at h
    · next hr =>
      simp [State.running, hf] at hr
      exact ⟨hf, hr, h⟩
    · cases h

/-- A running machine steps by its decoded instruction. -/
theorem step_of_running (s : State) (hf : s.fault = none) (hp : s.pc < s.stream.length) :
    step s = exec s.nextInstr s := by
  simp [step, State.running, hf, hp]

end Sys2Proof.Machine
end

