-- ==== Sys2Proof/Laws/PerInstr.lean ====
section
/-!
SUPPORT. A statement about every instruction as syntax: its word holds its opcode in the low six bits and nothing
in the bits that belong to no field (`30_encoding.md` R62, R70).
-/

namespace Sys2Proof.Laws.EncodeLayout

/-- The low six bits of the word are the opcode, and bits 31 to 24 are 0. -/
def Statement (i : Instr) : Prop :=
  ∀ u, (encodeWord u i).toNat % 64 = i.fields.a.toNat ∧ (encodeWord u i).toNat < 2 ^ 24

/-- The shared argument: packing puts the opcode lowest and reaches no bit above 23. -/
theorem of_pack (i : Instr) : Statement i := by
  intro u
  have ha := i.fields.a.isLt
  have hb := i.fields.b.isLt
  have hc : i.fields.c.toNat % 2 ^ cw u i.fields.a < 8192 :=
    Nat.lt_of_le_of_lt (Nat.mod_le _ _) i.fields.c.isLt
  have h := pack_toNat u i.fields
  simp only [encodeWord]
  omega

theorem loadConst (b : NarrowField) (c : WideField) : Statement (.loadConst b c) := of_pack _
theorem readMem (b : NarrowField) (c : NarrowField) : Statement (.readMem b c) := of_pack _
theorem writeMem (b : NarrowField) (c : WideField) : Statement (.writeMem b c) := of_pack _
theorem unaryMinus (b : NarrowField) (c : NarrowField) : Statement (.unaryMinus b c) := of_pack _
theorem unrecognized (a : Opcode) (b : NarrowField) (c : WideField) : Statement (.unrecognized a b c) := of_pack _

end Sys2Proof.Laws.EncodeLayout
end

