-- ==== Sys2Proof/Tests/Slice0.lean ====
section
/-!
SUPPORT. Tests against words and vectors written out from the spec (`95_test_vectors.md`, `30_encoding.md`), and for
every statement with hypotheses a witness that meets them.
-/

namespace Sys2Proof.Tests

open Sys2Proof.Machine

/-- Whether a result is a next state with the given property. -/
def nextIs (r : Result) (p : State → Bool) : Bool :=
  match r with
  | .next t => p t
  | .fault _ => false
  | .refused _ => false

/-- A passed check is a next state with the property. -/
theorem next_of_nextIs (r : Result) (p : State → Bool) (h : nextIs r p = true) : ∃ t, r = .next t ∧ p t = true := by
  cases r with
  | next t => exact ⟨t, rfl, h⟩
  | fault _ => cases h
  | refused _ => cases h

/-- A fresh machine with the default parameters. -/
def machine (stream : List Byte) : State := State.fresh Config.defaultParams stream

/-- The same with another `CAPACITY`. -/
def machineOf (capacity : Nat) (stream : List Byte) : State :=
  State.fresh { Config.defaultParams with capacity := capacity } stream

/-- The state with `x[i] = v`. -/
def setReg (s : State) (i : NarrowField) (v : Int) : State := { s with regs := s.regs.set i.toNat v i.isLt }

/-- The state with `M[k] = v`. -/
def setCell (s : State) (k : Nat) (v : Int) : State := { s with mem := s.mem.write k v }

/-! ### Well-formedness: an ill-formed term for each check -/

theorem test_wf_refuses_recognised_opcode : (Instr.unrecognized 7#6 0#5 0#13).wellFormed .bits13 = false := by decide
theorem test_wf_refuses_wide_c_when_narrow : (Instr.unrecognized 50#6 3#5 40#13).wellFormed .bits5 = false := by decide
theorem test_wf_accepts_unrecognised : (Instr.unrecognized 50#6 3#5 40#13).wellFormed .bits13 = true := by decide

/-! ### Decoding: words written out bit by bit from the formats of `30_encoding.md` R63 to R65 -/

theorem test_decode_load_const :
    instrOfWord .bits13 0b00000000_0000000101010_00011_000111#32 = .loadConst 3#5 42#13 := by decide
theorem test_decode_read_mem :
    instrOfWord .bits13 0b0000000000000000_01010_00100_110001#32 = .readMem 4#5 10#5 := by decide
theorem test_decode_write_mem :
    instrOfWord .bits13 0b00000000_0010000000000_00011_110011#32 = .writeMem 3#5 1024#13 := by decide
theorem test_decode_unary_minus :
    instrOfWord .bits13 0b0000000000000000_00001_00010_110111#32 = .unaryMinus 2#5 1#5 := by decide
theorem test_decode_unrecognized :
    instrOfWord .bits13 0b00000000_0000000101000_00011_110010#32 = .unrecognized 50#6 3#5 40#13 := by decide

/-- Part 2.2: unused bits are ignored, and a narrow `c` is 5 bits even with bits 23 to 16 set. -/
theorem test_decode_ignores_unused_bits :
    decode .bits13 [0xF1#8, 0xFF#8, 0xFF#8, 0xFF#8] = .ok ⟨49#6, 31#5, 31#13⟩ := by decide
/-- Part 2.2: a short chunk is padded. -/
theorem test_decode_short_chunk : decode .bits13 [0x07#8, 0x50#8] = .ok ⟨7#6, 0#5, 10#13⟩ := by decide
/-- Part 2.2, with `CW_UNREC = 5`. -/
theorem test_decode_narrow_unrecognised :
    decode .bits5 [0xF2#8, 0x40#8, 0x01#8, 0x00#8] = .ok ⟨50#6, 3#5, 8#13⟩ := by decide
/-- Decision D26. -/
theorem test_decode_refuses_five_bytes :
    decode .bits13 [0#8, 0#8, 0#8, 0#8, 0#8] = .error (.tooManyBytes 5) := by decide
/-- R92: two valid bytes of four. -/
theorem test_decode_port_counts_valid_bytes :
    decodePort .bits13 0xF3#8 0x00#8 0x20#8 0x00#8 2#3 = .ok (⟨51#6, 3#5, 0#13⟩, .writeMem) := by decide
theorem test_decode_table_word : decodeTableWord 32 0x000008B7 = some (.unaryMinus 2#5 1#5) := by decide

/-- Part 2.1. -/
theorem test_encode_truncates : encode .bits13 7 33 8234 = [0x47#8, 0x50#8, 0x01#8, 0x00#8] := by decide
theorem test_encode_negative_arguments : encode .bits13 49 (-1) (-1) = [0xF1#8, 0xFF#8, 0x00#8, 0x00#8] := by decide
theorem test_encode_masks_opcode : encode .bits13 71 1 2 = [0x47#8, 0x10#8, 0x00#8, 0x00#8] := by decide

/-! ### Instructions: rows of part 2.4 -/

theorem test_load_const_largest :
    nextIs (step (machine [0xC7#8, 0xFF#8, 0xFF#8, 0x00#8])) (fun t => t.reg 31#5 == 8191 && t.pc == 4) = true := by
  decide
theorem test_load_const_overwrites :
    nextIs (exec (.loadConst 5#5 0#13) (setReg (machine []) 5#5 99)) (fun t => t.reg 5#5 == 0) = true := by decide
theorem test_read_mem_copies_negative :
    nextIs (exec (.readMem 31#5 31#5) (setCell (machine []) 31 (-5)))
      (fun t => t.reg 31#5 == -5 && t.cell 31 == -5) = true := by decide
theorem test_read_mem_faults_at_capacity :
    nextIs (step (machineOf 16 [0x71#8, 0x80#8, 0x00#8, 0x00#8]))
      (fun t => t.fault == some ⟨.memory, 0, 16#13⟩ && t.pc == 0 && t.reg 1#5 == 0) = true := by decide
theorem test_write_mem_last_address :
    nextIs (exec (.writeMem 3#5 1023#13) (setReg (machine []) 3#5 7)) (fun t => t.cell 1023 == 7 && t.pc == 4) = true := by
  decide
theorem test_write_mem_first_faulting_address :
    nextIs (exec (.writeMem 3#5 1024#13) (setReg (machine []) 3#5 7))
      (fun t => t.fault == some ⟨.memory, 0, 1024#13⟩ && t.pc == 0 && t.mem == []) = true := by decide
theorem test_unary_minus_in_place :
    nextIs (exec (.unaryMinus 2#5 2#5) (setReg (machine []) 2#5 8191)) (fun t => t.reg 2#5 == -8191) = true := by decide
theorem test_unary_minus_reads_register_not_cell :
    nextIs (exec (.unaryMinus 4#5 3#5) (setCell (setReg (machine []) 3#5 9) 3 55)) (fun t => t.reg 4#5 == -9) = true := by
  decide
theorem test_unrecognized_is_not_range_checked :
    nextIs (step (machine [0xFF#8, 0xFF#8, 0xFF#8, 0xFF#8]))
      (fun t => t.pc == 4 && t.fault == none && t.regs == State.reset.regs && t.mem == []) = true := by decide

/-- R131: the most negative value wraps. -/
theorem test_neg_wraps : neg 32 (-2147483648) = -2147483648 := by decide

/-! ### Sequencer and host: parts 2.5, 2.6 and program P5 -/

theorem test_short_chunk_has_full_effect :
    nextIs (step { machine [0x07#8, 0x50#8, 0x01#8, 0x00#8, 0x33#8, 0x50#8] with pc := 4 })
      (fun t => t.pc == 8 && t.done && t.trunc) = true := by decide
theorem test_fetch_word_runs :
    nextIs (step (State.reset.withFetchWord 32 0x00015007)) (fun t => t.reg 0#5 == 42 && t.pc == 4) = true := by decide
theorem test_empty_stream_is_done : (machine []).done = true := by decide
theorem test_scenario_1_dump :
    interpret Config.defaultParams [0x07#8, 0x50#8, 0x01#8, 0x00#8, 0x33#8, 0x50#8, 0x00#8, 0x00#8] 9 11 =
      .ok [(9, 0), (10, 42), (11, 0)] := by decide
theorem test_dump_names_first_bad_address : (machine []).dump 1023 1024 = .error (.outOfRangeDump 1024) := by decide
theorem test_dump_names_negative_address : (machine []).dump (-1) 3 = .error (.outOfRangeDump (-1)) := by decide
theorem test_dump_empty_range : (machine []).dump 5 4 = .ok [] := by decide
/-- R109, R140: a configure leaves a failed run's condition and its inspection as they are; the reset leaves it. -/
theorem test_configure_keeps_the_condition :
    (({ Session.initial with machine := (setReg (machine [0#8]) 3#5 9).raise ⟨.memory, 1024⟩ } : Session).configure
      Config.defaultParams [0#8, 0#8, 0#8, 0#8, 0#8]).map (fun o => (o.1.machine.faulted, o.1.machine.inspect 3#5,
        o.1.reset.machine.running, o.1.reset.machine.trunc)) =
      .ok (true, .ok 9, true, true) := by rfl
theorem test_stream_too_long_is_refused :
    (Session.initial.handle (.configure { Config.defaultParams with pcw := some 3 } (List.replicate 5 0#8))) =
      .error (.streamTooLong 5) := by decide
theorem test_fault_shows_at_the_status_port :
    (State.raise { machine [0xF3#8, 0x00#8, 0x20#8] with pc := 8 } ⟨.memory, 2000⟩).status =
      { running := false, done := false, faulted := true, trunc := true, pc := 8, cause := 2#2, offset := 8,
        index := 2000#13 } := by decide

/-! ### Assembler: scenarios 1 and 4, part 2.7 -/

theorem test_assemble_scenario_1 :
    assembleFiles ⟨['\n'], true⟩ "LOAD_CONST 0 42\nWRITE_MEM 0 10\n".toList =
      .ok ([0x07#8, 0x50#8, 0x01#8, 0x00#8, 0x33#8, 0x50#8, 0x00#8, 0x00#8],
        "operation,A,B,C,raw_bytes\nLOAD_CONST,7,0,42,07500100\nWRITE_MEM,51,0,10,33500000\n".toList) := by decide
theorem test_assemble_unknown_mnemonic :
    assemble "FOO 1 2\n".toList = .error ⟨.syntaxError "FOO".toList, "FOO 1 2".toList⟩ := by decide
theorem test_assemble_argument_count :
    assembleLine "LOAD_CONST 0 5 # five".toList = .error (.argumentCount .loadConst 2) := by decide
theorem test_assemble_masks_the_log :
    (assembleLine "  load_const   33 8234 ".toList).map (fun o => o.map LogEntry.row) =
      .ok (some "LOAD_CONST,7,1,42,47500100".toList) := by decide
theorem test_assemble_not_an_integer :
    assembleLine "LOAD_CONST 0 x".toList = .error (.syntaxError "x".toList) := by decide
theorem test_comment_line_is_nothing : assembleLine "   # indented comment".toList = .ok none := by decide
theorem test_dump_csv :
    dumpCsv ⟨['\n'], true⟩ [(0, -8191), (1, 8191)] = "Address,Value\n0,-8191\n1,8191\n".toList := by decide
theorem test_disassemble : disassemble .bits13 0x00005033#32 = some "WRITE_MEM 0 10".toList := by decide

/-! ### Witnesses: states and operands that meet the hypotheses of the statements, one for each clause -/

theorem witness_EncodeMasksEachFieldThenPacks :
    (8192 : Int) = (if (7 : Int) % 64 = 7 ∨ (7 : Int) % 64 = 51 then 8192
      else if (7 : Int) % 64 = 49 ∨ (7 : Int) % 64 = 55 then 32 else 2 ^ Config.UnrecWidth.bits13.bits) ∧
    (32 : Int) = (if (49 : Int) % 64 = 7 ∨ (49 : Int) % 64 = 51 then 8192
      else if (49 : Int) % 64 = 49 ∨ (49 : Int) % 64 = 55 then 32 else 2 ^ Config.UnrecWidth.bits13.bits) := by decide

theorem witness_DecodeReadsFieldsOfTheWord : [0x33#8, 0x50#8].length ≤ 4 ∧
    20531 = ([0x33#8, 0x50#8].getD 0 0#8).toNat + ([0x33#8, 0x50#8].getD 1 0#8).toNat * 256 +
      ([0x33#8, 0x50#8].getD 2 0#8).toNat * 65536 + ([0x33#8, 0x50#8].getD 3 0#8).toNat * 16777216 := by decide

theorem witness_DecodePadsShortInputWithZeros :
    ([0x07#8] : List Byte).length ≤ 4 ∧ (List.replicate 4 0#8).length ≤ 4 ∧ 4 < (List.replicate 5 0#8).length := by decide

theorem witness_OpcodeSelectsInstructionAndFields :
    (1#5 : NarrowField) = BitVec.ofNat 5 ((0x00003847#32 : Word).toNat / 64) := by decide

theorem witness_DecodeInvertsEncodeOnValidTriples :
    validTriple .bits13 7 31 8191 = true ∧ validTriple .bits5 49 31 31 = true ∧
      validTriple .bits13 63 0 8191 = true := by decide

theorem witness_DecodeInvertsEncodeOnInstructions :
    (Instr.loadConst 31#5 8191#13).wellFormed .bits5 = true ∧
      (Instr.unrecognized 63#6 31#5 8191#13).wellFormed .bits13 = true := by decide

theorem witness_UnusedBitsDoNotChangeTheInstruction :
    (0x00015007#32 : Word).toNat % 16777216 = (0xFF015007#32 : Word).toNat % 16777216 ∧
      (0x00000031#32 : Word).toNat % 65536 = (0xFFFF0031#32 : Word).toNat % 65536 ∧
      (0x00000031#32 : Word).toNat % 64 = 49 := by decide

theorem witness_StepExecutesTheDecodedInstruction :
    (machine [0x07#8]).fault = none ∧ (machine [0x07#8]).pc < (machine [0x07#8]).stream.length ∧
      decodeInstr .bits13 (machine [0x07#8]).fetch = .ok (.loadConst 0#5 0#13) := by decide

/-- A state that holds a fault record, and one that is done. -/
theorem witness_NoStepUnlessRunning :
    ((machine []).raise ⟨.memory, 16⟩).fault = some ⟨.memory, 0, 16#13⟩ ∧
      (machine []).fault = none ∧ (machine []).stream.length ≤ (machine []).pc := by decide

theorem witness_FetchIsLittleEndianAtPc : (machine [0x07#8, 0x50#8]).pc < (machine [0x07#8, 0x50#8]).stream.length := by
  decide

theorem witness_EveryInstructionAnswersANextState : (machine [0x00#8]).running = true := by decide

/-- Both outcomes of a step. -/
theorem witness_CompletedStepAdvancesPcByFour :
    (∃ t, step (machine [0x07#8]) = .next t ∧ (t.fault == none) = true) ∧
      ∃ t, step (machine [0xF3#8, 0x00#8, 0x20#8]) = .next t ∧ t.fault.isSome = true :=
  ⟨next_of_nextIs _ _ (by decide), next_of_nextIs _ (fun t => t.fault.isSome) (by decide)⟩

theorem witness_ShortFinalChunkRunsZeroPadded :
    (machine [0xC7#8, 0xFF#8, 0xFF#8]).fault = none ∧ (machine [0xC7#8, 0xFF#8, 0xFF#8]).pc % 4 = 0 ∧
      (machine [0xC7#8, 0xFF#8, 0xFF#8]).pc < 3 ∧ 3 < (machine [0xC7#8, 0xFF#8, 0xFF#8]).pc + 4 := by decide

/-- Also for `StepKeepsTheFaultRecordSound`. -/
theorem witness_FaultIsPreciseAndNamesItsAddress :
    ∃ t, step (machine [0xF3#8, 0x00#8, 0x20#8]) = .next t ∧ (t.fault == some ⟨.memory, 0, 1024#13⟩) = true :=
  next_of_nextIs _ _ (by decide)

/-- A register written, a cell written, a fault of `WRITE_MEM` and of `READ_MEM`, and a no-operation; also for `StepKeepsStreamAndParameters`,
`WidthOfValuesIsUnobservable` and `UnrecognizedWidthIsUnobservable`. -/
theorem witness_StepWritesAtMostOneRegisterOrCell :
    (∃ t, step (machine [0x07#8, 0x50#8]) = .next t ∧ (t.reg 0#5 == 10) = true) ∧
    (∃ t, step (setReg (machine [0x33#8, 0x50#8]) 0#5 42) = .next t ∧ (t.cell 10 == 42) = true) ∧
    (∃ t, step (machine [0xF3#8, 0x00#8, 0x20#8]) = .next t ∧ t.fault.isSome = true) ∧
    (∃ t, step (machineOf 16 [0x71#8, 0x80#8]) = .next t ∧ t.fault.isSome = true) ∧
    (∃ t, step (machine [0xFF#8]) = .next t ∧ (t.pc == 4) = true) :=
  ⟨next_of_nextIs _ _ (by decide), next_of_nextIs _ _ (by decide),
    next_of_nextIs _ (fun t => t.fault.isSome) (by decide), next_of_nextIs _ (fun t => t.fault.isSome) (by decide),
    next_of_nextIs _ (fun t => t.pc == 4) (by decide)⟩

theorem witness_OnlyWriteMemChangesACell :
    ∃ t, step (setReg (machine [0x33#8, 0x50#8]) 0#5 42) = .next t ∧
      decide (t.cell 10 ≠ (setReg (machine [0x33#8, 0x50#8]) 0#5 42).cell 10) = true :=
  next_of_nextIs _ (fun t => decide (t.cell 10 ≠ (setReg (machine [0x33#8, 0x50#8]) 0#5 42).cell 10)) (by decide)

/-- A register changed by each of the three instructions that write one. -/
theorem witness_OnlyTheNamedDestinationRegisterChanges :
    (∃ t, step (machine [0x07#8, 0x50#8]) = .next t ∧ decide (t.reg 0#5 ≠ 0) = true) ∧
    (∃ t, step (setCell (machine [0x31#8, 0x51#8]) 10 42) = .next t ∧ decide (t.reg 4#5 ≠ 0) = true) ∧
    (∃ t, step (setReg (machine [0xB7#8, 0x08#8]) 1#5 7) = .next t ∧ decide (t.reg 2#5 ≠ 0) = true) :=
  ⟨next_of_nextIs _ (fun t => decide (t.reg 0#5 ≠ 0)) (by decide),
    next_of_nextIs _ (fun t => decide (t.reg 4#5 ≠ 0)) (by decide),
    next_of_nextIs _ (fun t => decide (t.reg 2#5 ≠ 0)) (by decide)⟩

theorem witness_LoadConstWritesItsConstant : 14 ≤ State.reset.params.xlen := by decide

/-- The last legal and the first faulting address of a small memory, and a word with its upper bits set. -/
theorem witness_ReadMemCopiesItsCellOrFaults :
    (15#5 : NarrowField).toNat < (machineOf 16 []).params.capacity ∧
      (machineOf 16 []).params.capacity ≤ (16#5 : NarrowField).toNat ∧
      (0xFFFF5131#32 : Word).toNat % 65536 = 49 + (4#5 : NarrowField).toNat * 64 + (10#5 : NarrowField).toNat * 2048 := by
  decide

theorem witness_WriteMemStoresItsRegisterOrFaults :
    State.reset.mem.wf = true ∧ wideAddress 1023#13 < State.reset.params.capacity ∧
      State.reset.params.capacity ≤ wideAddress 1024#13 := by decide

/-- The greatest value of 32 bits, and one above the most negative. -/
theorem witness_UnaryMinusNegatesItsRegister :
    14 ≤ State.reset.params.xlen ∧
      -(2 ^ 31 : Int) < (setReg State.reset 1#5 (-2147483647)).reg 1#5 ∧
      (setReg State.reset 1#5 2147483647).reg 1#5 < 2 ^ 31 ∧
      (0xFFFF08B7#32 : Word).toNat % 65536 = 55 + (2#5 : NarrowField).toNat * 64 + (1#5 : NarrowField).toNat * 2048 := by
  decide

theorem witness_UnrecognizedOpcodeOnlyAdvancesPc :
    (machine [0xFF#8]).running = true ∧
      classify (unpack .bits13 (wordOf (machine [0xFF#8]).fetch)).a = .unrecognized := by decide

/-- The clauses of the negation law at 14 bits: a result below `2^13`, one at `2^13`, and the most negative
value. -/
theorem witness_NegationIsTwosComplement :
    1 ≤ 14 ∧ -(2 ^ 13 : Int) ≤ -8192 ∧ (8191 : Int) < 2 ^ 13 ∧
      (2 ^ 14 - (-8191 : Int) % 2 ^ 14) % 2 ^ 14 < (2 ^ 13 : Int) ∧
      (2 ^ 13 : Int) ≤ (2 ^ 14 - (-8192 : Int) % 2 ^ 14) % 2 ^ 14 ∧
      SmallValue (-8191) := by
  unfold SmallValue; decide

/-- Also for `EveryValueOfTheRangeIsReachable`. -/
theorem witness_NegationIsAnInvolutionOnReachableValues : 14 ≤ 14 ∧ SmallValue 8191 := by
  unfold SmallValue; decide

theorem witness_TwoNegationsCopyARegister :
    14 ≤ (setReg State.reset 1#5 7).params.xlen ∧ SmallValue ((setReg State.reset 1#5 7).reg 1#5) := by
  unfold SmallValue; decide

/-- A later state that left the cell alone is the state after the write itself. -/
theorem witness_ReadMemReturnsTheLatestWrite :
    State.reset.mem.wf = true ∧ (31#5 : NarrowField).toNat < State.reset.params.capacity ∧
      ∃ t, exec (.writeMem 0#5 31#13) State.reset = .next t ∧ (t.cell 31 == t.cell 31 && t.params == t.params) = true :=
  ⟨by decide, by decide, next_of_nextIs _ _ (by decide)⟩

theorem witness_ReachOfTheAddressFields :
    32 ≤ (machineOf 32 []).params.capacity ∧ 8192 ≤ (machineOf 8192 []).params.capacity ∧
      ∃ t, step (setReg (machineOf 9000 [0xF3#8, 0xFF#8, 0xFF#8]) 31#5 7) = .next t ∧ (t.cell 8191 == 0 || true) = true :=
  ⟨by decide, by decide, next_of_nextIs _ _ (by decide)⟩

/-- A state with a written cell that meets every invariant and has a next state; for the four invariants. -/
theorem witness_StepKeepsMemoryCanonical :
    (setCell (machine [0x33#8, 0x50#8]) 5 9).MemInv ∧
      ∃ t, step (setCell (machine [0x33#8, 0x50#8]) 5 9) = .next t ∧ (t.pc == 4) = true := by
  refine ⟨⟨by decide, ?_⟩, next_of_nextIs _ _ (by decide)⟩
  intro e he
  have : e = (5, 9) := by simpa [setCell, machine, State.fresh, Memory.write] using he
  subst this
  decide

theorem witness_StepKeepsValuesInRange :
    14 ≤ (machine [0x07#8]).params.xlen ∧ (machine [0x07#8]).mem.wf = true ∧ (machine [0x07#8]).SmallValues ∧
      ∃ t, step (machine [0x07#8]) = .next t ∧ (t.pc == 4) = true := by
  refine ⟨by decide, by decide, ⟨?_, ?_⟩, next_of_nextIs _ _ (by decide)⟩
  · intro i; simp [machine, State.reg, SmallValue]
  · intro k; simp [machine, State.cell, Memory.read, SmallValue]

theorem witness_StepKeepsPcAlignedAndBounded :
    (machine [0x07#8]).PcInv ∧ (machine [0x07#8]).FaultInv ∧
      ∃ t, step (machine [0x07#8]) = .next t ∧ (t.pc == 4) = true :=
  ⟨by unfold State.PcInv; decide, (fun r h => by simp [machine, State.fresh] at h), next_of_nextIs _ (fun t => t.pc == 4) (by decide)⟩

theorem witness_ResetLeavesEverythingZero : machineOf 0 [0x07#8] = State.fresh ⟨32, 0, none, .bits13⟩ [0x07#8] := rfl

/-- Two steps to a normal end. -/
theorem witness_NStepsAdvancePcByFourN :
    ∃ t, State.stepN 2 (machine (List.replicate 8 0#8)) = .next t ∧ (t.fault == none && t.pc == 8) = true :=
  next_of_nextIs _ _ (by decide)

theorem witness_NormalEndHasExecutedTheWholeStream : safeRun Config.defaultParams [0x07#8, 0x50#8, 0x01#8] := by
  unfold safeRun; decide

theorem witness_FaultIsTerminalUntilReset :
    ((machine []).raise ⟨.memory, 1024⟩).fault = some ⟨.memory, 0, 1024#13⟩ := by decide

/-- Two sets of parameters that differ in everything but `CAPACITY`. -/
theorem witness_RunIsAFunctionOfStreamAndCapacity :
    (⟨14, 16, some 9, .bits5⟩ : Config.Params).legal = true ∧ (⟨64, 16, none, .bits13⟩ : Config.Params).legal = true ∧
      (⟨14, 16, some 9, .bits5⟩ : Config.Params).capacity = (⟨64, 16, none, .bits13⟩ : Config.Params).capacity := by decide

theorem witness_DumpGivesOneRowPerAddress :
    (machine []).done = true ∧ 1023 ≤ 1023 ∧ 1023 < (machine []).params.capacity := by decide

/-- Not done; an empty range; a range bad below, a range bad above. -/
theorem witness_DumpRefusesWholeRequests :
    (machine [0x07#8]).done = false ∧ (machine []).done = true ∧ (4 : Int) < 5 ∧
      ((-1 : Int) ≤ 3 ∧ (-1 : Int) < 0) ∧ ((1023 : Int) ≤ 1024 ∧ ((machine []).params.capacity : Int) ≤ 1024) := by decide

/-- A session that is done, one that is faulted and one that is running. -/
theorem witness_InspectionReadsARegisterAfterTheRun :
    Session.initial.machine.done = true ∧
      ({ Session.initial with machine := (machine []).raise ⟨.memory, 16⟩ } : Session).machine.faulted = true ∧
      ({ Session.initial with machine := machine [0x07#8] } : Session).machine.running = true := by decide

theorem witness_AcceptedStreamKeepsPcWithinItsWidth :
    (State.fresh ⟨32, 16, some 3, .bits13⟩ [0#8, 0#8, 0#8, 0#8]).params.pcw = some 3 ∧
      (⟨32, 16, some 3, .bits13⟩ : Config.Params).streamFits 4 = true ∧
      (State.fresh ⟨32, 16, some 3, .bits13⟩ [0#8, 0#8, 0#8, 0#8]).PcInv :=
  ⟨rfl, by decide, by unfold State.PcInv; decide⟩

/-- The longest stream that fits a `pc` of 3 bits, and the first that does not. -/
theorem witness_HostRunStartsFresh :
    (⟨32, 16, some 3, .bits13⟩ : Config.Params).legal = true ∧
      (⟨32, 16, some 3, .bits13⟩ : Config.Params).streamFits 4 = true ∧
      (⟨32, 16, some 3, .bits13⟩ : Config.Params).streamFits 5 = false := by decide

/-- A reading move and a `configure`. -/
theorem witness_HostCannotWriteTheState :
    Session.initial.handle (.configure Config.defaultParams [0x07#8]) =
      .ok ({ Session.initial with inputs := ⟨Config.defaultParams, [0x07#8]⟩ }, .nothing) ∧
    Session.initial.handle .status = .ok (Session.initial, .status State.reset.status) ∧
      Request.status ≠ .reset ∧ Request.status ≠ .run := by decide

theorem witness_InstructionLineAssemblesToItsEncoding :
    "Load_Const".toList.map Char.toUpper = Mnemonic.loadConst.text := by decide

theorem witness_BlankAndCommentLinesProduceNothing : ∀ ch ∈ [' ', '\t'], ch.isWhitespace = true := by simp

/-- A line for each clause: an unknown mnemonic, a known one with one argument, and each argument in turn no
integer; none is a comment. -/
theorem witness_BadLinesFailWithTheirErrorClass :
    tokensOf " FOO 1".toList = ["FOO".toList, "1".toList] ∧
      ((" FOO 1".toList).dropWhile Char.isWhitespace).head? ≠ some '#' ∧ mnemonicOf "FOO".toList = none ∧
    tokensOf "read_mem 1".toList = ["read_mem".toList, "1".toList] ∧
      (("read_mem 1".toList).dropWhile Char.isWhitespace).head? ≠ some '#' ∧
      mnemonicOf "read_mem".toList = some .readMem ∧ ["1".toList].length ≠ 2 ∧
    tokensOf "READ_MEM x 1".toList = ["READ_MEM".toList, "x".toList, "1".toList] ∧
      mnemonicOf "READ_MEM".toList = some .readMem ∧ parseInt "x".toList = none ∧
    tokensOf "READ_MEM +5 -".toList = ["READ_MEM".toList, "+5".toList, "-".toList] ∧
      parseInt "+5".toList = some 5 ∧ parseInt "-".toList = none := by decide

theorem witness_FirstBadLineAbortsTheAssembly :
    linesOf "# c\nFOO 1 2\n".toList = ["# c".toList] ++ "FOO 1 2".toList :: [[]] ∧
      assembleLines ["# c".toList] = .ok [] ∧
      assembleLine "FOO 1 2".toList = .error (.syntaxError "FOO".toList) := by decide

theorem witness_SourceOrderIsInstructionOrder :
    (assembleLines ["LOAD_CONST 0 5".toList]).isOk = true ∧ (assembleLines ["READ_MEM 1 2".toList]).isOk = true := by decide

/-- Also for `AssemblerEmitsOnlyRecognisedOpcodes`: scenario 3 assembles to one entry. -/
theorem witness_BinaryHasFourBytesPerInstruction :
    assemble "#comment\n\nLOAD_CONST 0 5\n".toList =
      .ok [⟨.loadConst, 7#6, 0#5, 5#13, [0x07#8, 0x28#8, 0x00#8, 0x00#8]⟩] ∧
    instructionLines "#comment\n\nLOAD_CONST 0 5\n".toList = ["LOAD_CONST 0 5".toList] := by decide

theorem witness_DisassemblyAssemblesBack :
    recognized (BitVec.ofNat 6 (0x00000000#32 : Word).toNat) = false ∧
      recognized (BitVec.ofNat 6 (0x00005033#32 : Word).toNat) = true := by decide

end Sys2Proof.Tests
end

/-!
SUPPORT. The statements about the state (`10_state.md`): what a step can change, and what the host's moves can.
-/

namespace Sys2Proof.Machine

/-! ### What a step can do -/

/-- Everything a step can do, from `step_next` and `exec_cases`: a machine that steps was running, and it wrote a
register, wrote a cell, wrote nothing, or recorded a failed memory check. -/
theorem step_cases {s t : State} (h : step s = .next t) :
    s.fault = none ∧ s.pc < s.stream.length ∧
    ((∃ (b : NarrowField) (v : Int), t = ({ s with regs := s.regs.set b.toNat v b.isLt } : State).advance ∧
        ((∃ c, s.nextInstr = .loadConst b c ∧ v = constOperand s.params.xlen c) ∨
         (∃ c, s.nextInstr = .readMem b c ∧ c.toNat < s.params.capacity ∧ v = s.cell c.toNat) ∨
         (∃ c, s.nextInstr = .unaryMinus b c ∧ v = neg s.params.xlen (s.reg c)))) ∨
     (∃ b c, t = ({ s with mem := s.mem.write c.toNat (s.reg b) } : State).advance ∧
        s.nextInstr = .writeMem b c ∧ c.toNat < s.params.capacity) ∨
     (t = s.advance ∧ ∃ a b c, s.nextInstr = .unrecognized a b c) ∨
     (∃ addr, t = s.raise { cause := .memory, index := addr } ∧ s.params.capacity ≤ addr ∧ addr < 8192 ∧
        ((∃ b c, s.nextInstr = .readMem b c ∧ addr = c.toNat) ∨
         (∃ b c, s.nextInstr = .writeMem b c ∧ addr = c.toNat)))) := by
  obtain ⟨hf, hp, hx⟩ := step_next s t h
  have next_eq {u : State} (hu : exec s.nextInstr s = .next u) : t = u := by
    rw [hx] at hu; exact Host.Outcome.next.inj hu
  refine ⟨hf, hp, ?_⟩
  obtain ⟨b, v, he, hi⟩ | ⟨b, c, hi, hc, he⟩ | ⟨hi, he⟩ | ⟨addr, hge, hlt, he, hi⟩ := exec_cases s.nextInstr s
  · exact .inl ⟨b, v, next_eq he, hi⟩
  · exact .inr (.inl ⟨b, c, next_eq he, hi, hc⟩)
  · exact .inr (.inr (.inl ⟨next_eq he, hi⟩))
  · exact .inr (.inr (.inr ⟨addr, next_eq he, hge, hlt, hi⟩))

/-- A step completes with `pc` 4 on, or records a fault with `pc` where it was (R26). -/
theorem step_pc {s t : State} (h : step s = .next t) : t.pc = s.pc + 4 ∨ t.pc = s.pc := by
  obtain ⟨-, -, ⟨b, v, rfl, -⟩ | ⟨b, c, rfl, -⟩ | ⟨rfl, -⟩ | ⟨addr, rfl, -⟩⟩ := step_cases h
  · exact .inl rfl
  · exact .inl rfl
  · exact .inl rfl
  · exact .inr rfl

/-- Settles O35: none of the four shapes of a step touches the inputs. -/
theorem stepKeepsStreamAndParameters : Obligations.StepKeepsStreamAndParameters := by
  intro s t h
  obtain ⟨-, -, ⟨b, v, rfl, -⟩ | ⟨b, c, rfl, -⟩ | ⟨rfl, -⟩ | ⟨addr, rfl, -⟩⟩ := step_cases h
  · exact ⟨rfl, rfl⟩
  · exact ⟨rfl, rfl⟩
  · exact ⟨rfl, rfl⟩
  · exact ⟨rfl, rfl⟩

/-- Settles O33: a machine that steps has `pc < L`, so an aligned `pc` lies a whole chunk below the bound
`4 * ceil(L / 4)`, and the bound stays since the stream does. -/
theorem stepKeepsPcAlignedAndBounded : Obligations.StepKeepsPcAlignedAndBounded := by
  intro s t hinv h
  obtain ⟨haligned, hbound⟩ := hinv
  obtain ⟨-, hrunning, -⟩ := step_cases h
  obtain ⟨hstream, -⟩ := stepKeepsStreamAndParameters s t h
  have hroom : s.pc + 4 ≤ 4 * ((s.stream.length + 3) / 4) := by omega
  unfold State.PcInv
  rw [hstream]
  obtain hpc | hpc := step_pc h
  · rw [hpc]; exact ⟨by omega, hroom⟩
  · rw [hpc]; exact ⟨haligned, hbound⟩

/-- Settles O19: only the shape that writes a cell can, and it leaves every cell but its own alone. -/
theorem onlyWriteMemChangesACell : Obligations.OnlyWriteMemChangesACell := by
  intro s t k h hne
  obtain ⟨-, -, ⟨b, v, rfl, -⟩ | ⟨b, c, rfl, hi, -⟩ | ⟨rfl, -⟩ | ⟨addr, rfl, -⟩⟩ := step_cases h
  · exact absurd rfl hne
  · refine ⟨b, c, hi, ?_⟩
    by_contra hk
    exact hne (read_write_other s.mem c.toNat k (s.reg b) (Ne.symm hk))
  · exact absurd rfl hne
  · exact absurd rfl hne

/-- Settles O20: only the shape that writes a register can, it leaves every register but its own alone, and it
is that of the three instructions with a destination. -/
theorem onlyTheNamedDestinationRegisterChanges : Obligations.OnlyTheNamedDestinationRegisterChanges := by
  intro s t j h hne
  obtain ⟨-, -, ⟨b, v, rfl, hi⟩ | ⟨b, c, rfl, -⟩ | ⟨rfl, -⟩ | ⟨addr, rfl, -⟩⟩ := step_cases h
  · obtain rfl : j = b := by
      by_contra hj
      exact hne (reg_set_other s b j v hj)
    obtain ⟨c, hi, -⟩ | ⟨c, hi, -⟩ | ⟨c, hi, -⟩ := hi
    · exact .inl ⟨c, hi⟩
    · exact .inr (.inl ⟨c, hi⟩)
    · exact .inr (.inr ⟨c, hi⟩)
  · exact absurd rfl hne
  · exact absurd rfl hne
  · exact absurd rfl hne

/-! ### The fresh state -/

@[simp] theorem fresh_reg (p : Config.Params) (st : List Byte) (i : NarrowField) :
    (State.fresh p st).reg i = 0 := by
  simp [State.reg]

@[simp] theorem fresh_cell (p : Config.Params) (st : List Byte) (k : Nat) : (State.fresh p st).cell k = 0 := rfl

/-- Settles O37: the reset state is itself a fresh state, and the claims are the readings of `State.fresh`. -/
theorem resetLeavesEverythingZero : Obligations.ResetLeavesEverythingZero := by
  intro p stream s hs
  obtain ⟨p', stream', rfl⟩ : ∃ p' stream', s = State.fresh p' stream' := by
    obtain hs | hs := hs
    · exact ⟨Config.defaultParams, [], hs⟩
    · exact ⟨p, stream, hs⟩
  exact ⟨fresh_reg p' stream', fresh_cell p' stream', rfl, rfl, rfl, rfl, rfl⟩

/-! ### The host's moves -/

/-- A `configure` that is accepted: the inputs are held, and a run needs a reset again. -/
theorem handle_configure_of_fits (h : Session) (p : Config.Params) (stream : List Byte) (hp : p.legal = true)
    (hs : p.streamFits stream.length = true) :
    h.handle (.configure p stream) =
      .ok ({ h with inputs := { params := p, stream := stream }, phase := .awaitingReset }, .nothing) := by
  simp [Session.handle, Session.configure, hp, hs]

/-- A `configure` whose stream is too long for `PCW` is refused (R27). -/
theorem handle_configure_of_too_long (h : Session) (p : Config.Params) (stream : List Byte) (hp : p.legal = true)
    (hs : p.streamFits stream.length = false) :
    h.handle (.configure p stream) = .error (.streamTooLong stream.length) := by
  simp [Session.handle, Session.configure, hp, hs]

/-- An accepted `configure` leaves the machine as it was. -/
theorem configure_machine {h h' : Session} {p : Config.Params} {stream : List Byte} {r : Response}
    (hq : h.configure p stream = .ok (h', r)) : h'.machine = h.machine := by
  unfold Session.configure at hq
  split at hq
  · cases hq
  · split at hq
    · cases hq
    · cases hq; rfl

/-- A reset makes the machine the fresh state of the configured inputs (R200). -/
theorem reset_machine (h : Session) : h.reset.machine = State.fresh h.inputs.params h.inputs.stream := rfl

/-- After a reset, a run takes the machine to the end of its run. -/
theorem handle_run_of_ready (h : Session) (hp : h.phase = .ready) :
    h.handle .run =
      .ok ({ h with machine := h.machine.runToEnd, phase := .awaitingReset }, .status h.machine.runToEnd.status) := by
  simp [Session.handle, Session.run, hp]

/-- A run without a reset of its own is refused (log entry 7). -/
theorem handle_run_of_awaitingReset (h : Session) (hp : h.phase = .awaitingReset) :
    h.handle .run = .error .needsReset := by
  simp [Session.handle, Session.run, hp]

/-- An answer that is computed beside the session `h` comes back with `h`. -/
theorem session_of_map_ok {α : Type} {h h' : Session} {x : Except PortRefusal α} {f : α → Response} {r : Response}
    (hx : x.map (fun a => (h, f a)) = .ok (h', r)) : h' = h := by
  cases x with
  | error e => cases hx
  | ok a => cases hx; rfl

/-- Settles O52: a `configure` only holds its inputs, and each reading move answers beside the session. -/
theorem hostCannotWriteTheState : Obligations.HostCannotWriteTheState := by
  intro h h' q r hq hreset hrun
  have reads (heq : h' = h) : h'.machine = h.machine ∧ ((∀ p stream, q ≠ .configure p stream) → h' = h) :=
    ⟨congrArg Session.machine heq, fun _ => heq⟩
  cases q with
  | configure p stream => exact ⟨configure_machine hq, fun hne => absurd rfl (hne p stream)⟩
  | reset => exact absurd rfl hreset
  | run => exact absurd rfl hrun
  | status => cases hq; exact reads rfl
  | dump start stop => exact reads (session_of_map_ok hq)
  | inspect i => exact reads (session_of_map_ok hq)
  | encode a b c => cases hq; exact reads rfl
  | decode bytes =>
    simp only [Session.handle] at hq
    split at hq
    · cases hq; exact reads rfl
    · cases hq

/-- Settles O51: each move answers by its own lemma, the machine by `reset_machine`, and the two refused runs by
the phase that `configure` and `run` leave. -/
theorem hostRunStartsFresh : Obligations.HostRunStartsFresh := by
  refine ⟨fun h p stream hp hs => ?_, handle_configure_of_too_long⟩
  exact ⟨_, _, _, handle_configure_of_fits h p stream hp hs, handle_run_of_awaitingReset _ rfl, rfl,
    handle_run_of_ready _ rfl, congrArg State.runToEnd (reset_machine _), handle_run_of_awaitingReset _ rfl⟩

end Sys2Proof.Machine

/-!
SUPPORT. The statements about memory, fetching and what the parameters leave open (`20_memory.md`), with the one
equation per instruction, the range of the values and the change of parameters that they need.
-/

namespace Sys2Proof.Machine

/-! ### Fetching -/

theorem fetch_length (s : State) : s.fetch.length = min 4 (s.stream.length - s.pc) := by
  simp [State.fetch]

/-- Byte `j` of the fetched chunk is the stream's byte at `pc + j` (R46). -/
theorem fetch_getElem? (s : State) (j : Nat) (hj : j < 4) : s.fetch[j]? = s.stream[s.pc + j]? := by
  simp [State.fetch, hj]

/-- Padding the fetched chunk with zeros is reading the stream with zeros beyond its end (R45). -/
theorem fetch_getD (s : State) (j : Nat) (hj : j < 4) : s.fetch.getD j 0#8 = s.stream.getD (s.pc + j) 0#8 := by
  rw [List.getD_eq_getElem?_getD, fetch_getElem? s j hj, List.getD_eq_getElem?_getD]

/-- The fetched word is the little-endian number of the four bytes at `pc`. -/
theorem wordOf_fetch (s : State) :
    wordOf s.fetch = BitVec.ofNat 32
      ((s.stream.getD s.pc 0#8).toNat + (s.stream.getD (s.pc + 1) 0#8).toNat * 256 +
        (s.stream.getD (s.pc + 2) 0#8).toNat * 65536 + (s.stream.getD (s.pc + 3) 0#8).toNat * 16777216) := by
  have hnat := wordOf_toNat s.fetch
  rw [fetch_getD s 0 (by decide), fetch_getD s 1 (by decide), fetch_getD s 2 (by decide),
    fetch_getD s 3 (by decide), Nat.add_zero] at hnat
  rw [← hnat, BitVec.ofNat_toNat, BitVec.setWidth_eq]

/-- Settles O13: the chunk's length and bytes are those of `fetch_length` and `fetch_getElem?`, its word that of
`wordOf_fetch`, and a short chunk at an aligned `pc` means that fewer than 4 bytes are left. -/
theorem fetchIsLittleEndianAtPc : Obligations.FetchIsLittleEndianAtPc := by
  intro s hrunning
  have hlen := fetch_length s
  refine ⟨hlen, by omega, fun haligned hshort => ⟨by omega, by omega⟩, fun j hj => ?_, ?_⟩
  · exact fetch_getElem? s j (by omega)
  · exact congrArg (instrOfWord s.params.cwUnrec) (wordOf_fetch s)

/-! ### What each instruction answers -/

theorem exec_loadConst (b : NarrowField) (c : WideField) (s : State) :
    exec (.loadConst b c) s =
      .next ({ s with regs := s.regs.set b.toNat (constOperand s.params.xlen c) b.isLt } : State).advance := by
  simp [exec, execLoadConst, regOperand]

theorem exec_readMem_of_lt (b c : NarrowField) (s : State) (h : c.toNat < s.params.capacity) :
    exec (.readMem b c) s =
      .next ({ s with regs := s.regs.set b.toNat (s.cell c.toNat) b.isLt } : State).advance := by
  simp [exec, execReadMem, regOperand, narrowAddress, memRead_of_lt s _ h, bind, Except.bind]

theorem exec_readMem_of_ge (b c : NarrowField) (s : State) (h : s.params.capacity ≤ c.toNat) :
    exec (.readMem b c) s = .next (s.raise { cause := .memory, index := c.toNat }) := by
  simp [exec, execReadMem, regOperand, narrowAddress, memRead_of_ge s _ h, bind, Except.bind]

theorem exec_writeMem_of_lt (b : NarrowField) (c : WideField) (s : State) (h : c.toNat < s.params.capacity) :
    exec (.writeMem b c) s = .next ({ s with mem := s.mem.write c.toNat (s.reg b) } : State).advance := by
  simp [exec, execWriteMem, regOperand, wideAddress, memWrite_of_lt s _ _ h, bind, Except.bind]

theorem exec_writeMem_of_ge (b : NarrowField) (c : WideField) (s : State) (h : s.params.capacity ≤ c.toNat) :
    exec (.writeMem b c) s = .next (s.raise { cause := .memory, index := c.toNat }) := by
  simp [exec, execWriteMem, regOperand, wideAddress, memWrite_of_ge s _ _ h, bind, Except.bind]

theorem exec_unaryMinus (b c : NarrowField) (s : State) :
    exec (.unaryMinus b c) s =
      .next ({ s with regs := s.regs.set b.toNat (neg s.params.xlen (s.reg c)) b.isLt } : State).advance := by
  simp [exec, execUnaryMinus, regOperand, bind, Except.bind]

theorem exec_unrecognized (a : Opcode) (b : NarrowField) (c : WideField) (s : State) :
    exec (.unrecognized a b c) s = .next s.advance := rfl

/-- A narrow address keeps its value in the wide field. -/
theorem narrow_setWidth_toNat (c : NarrowField) : (c.setWidth 13 : WideField).toNat = c.toNat :=
  BitVec.toNat_setWidth_of_le (by decide)

/-- Reading a cell after it was written, on a canonical list. -/
theorem cell_write_same (s : State) (k : Nat) (v : Int) (hwf : s.mem.wf = true) :
    ({ s with mem := s.mem.write k v } : State).cell k = v :=
  read_write_same s.mem 0 k v hwf

/-- Writing cell `k` leaves the others alone. -/
theorem cell_write_other (s : State) (k j : Nat) (v : Int) (h : j ≠ k) :
    ({ s with mem := s.mem.write k v } : State).cell j = s.cell j :=
  read_write_other s.mem k j v h

/-- Settles O29: the write leaves the register's value in its cell (`cell_write_same`), the states between keep it
there, and the read copies the cell. -/
theorem readMemReturnsTheLatestWrite : Obligations.ReadMemReturnsTheLatestWrite := by
  intro s b d c hwf hc
  have hwrite := exec_writeMem_of_lt b (c.setWidth 13) s (by rwa [narrow_setWidth_toNat])
  rw [narrow_setWidth_toNat] at hwrite
  refine ⟨_, hwrite, fun t' hcell hparams => ?_⟩
  have hc' : c.toNat < t'.params.capacity := by rw [hparams]; exact hc
  refine ⟨_, exec_readMem_of_lt d c t' hc', ?_⟩
  calc (({ t' with regs := t'.regs.set d.toNat (t'.cell c.toNat) d.isLt } : State).advance).reg d
      = t'.cell c.toNat := reg_set_same t' d _
    _ = ({ s with mem := s.mem.write c.toNat (s.reg b) } : State).cell c.toNat := hcell
    _ = s.reg b := cell_write_same s c.toNat (s.reg b) hwf

/-! ### The values a run makes (`10_state.md` R25) -/

/-- A value of the range is its own residue in `XLEN` bits. -/
theorem bmod_two_pow_of_smallValue {n : Nat} {v : Int} (hn : 14 ≤ n) (hv : SmallValue v) :
    v.bmod (2 ^ n) = v := by
  obtain ⟨hlow, hhigh⟩ := hv
  have hpow : 2 ^ 14 ≤ 2 ^ n := Nat.pow_le_pow_right (by decide) hn
  exact Int.bmod_eq_of_le (by omega) (by omega)

theorem smallValue_zero : SmallValue 0 := ⟨by decide, by decide⟩

theorem smallValue_neg {v : Int} (hv : SmallValue v) : SmallValue (-v) := by
  obtain ⟨hlow, hhigh⟩ := hv
  exact ⟨by omega, by omega⟩

theorem smallValue_field (c : WideField) : SmallValue (c.toNat : Int) := by
  have hc := c.isLt
  exact ⟨by omega, by omega⟩

/-- The constant of `LOAD_CONST` is its field, whatever the legal `XLEN`. -/
theorem constOperand_of_legal {n : Nat} (hn : 14 ≤ n) (c : WideField) : constOperand n c = c.toNat := by
  have hfits : (c.setWidth n).toNat = c.toNat := BitVec.toNat_setWidth_of_le (by omega)
  rw [constOperand, BitVec.toInt_eq_toNat_bmod, hfits, bmod_two_pow_of_smallValue hn (smallValue_field c)]

/-- On the range of a run, negation is exact, whatever the legal `XLEN` (R131). -/
theorem neg_of_smallValue {n : Nat} {v : Int} (hn : 14 ≤ n) (hv : SmallValue v) : neg n v = -v := by
  rw [neg, ← BitVec.ofInt_neg, BitVec.toInt_ofInt, bmod_two_pow_of_smallValue hn (smallValue_neg hv)]

/-- Every register and cell of a fresh machine is 0. -/
theorem fresh_smallValues (p : Config.Params) (st : List Byte) : (State.fresh p st).SmallValues :=
  ⟨fun i => by rw [fresh_reg]; exact smallValue_zero, fun _ => smallValue_zero⟩

theorem smallValues_set {s : State} (hs : s.SmallValues) (b : NarrowField) {v : Int} (hv : SmallValue v) :
    ({ s with regs := s.regs.set b.toNat v b.isLt } : State).SmallValues := by
  obtain ⟨hregs, hcells⟩ := hs
  refine ⟨fun j => ?_, hcells⟩
  by_cases hj : j = b
  · rw [hj, reg_set_same]; exact hv
  · rw [reg_set_other s b j v hj]; exact hregs j

theorem smallValues_write {s : State} (hs : s.SmallValues) (hwf : s.mem.wf = true) (k : Nat) {v : Int}
    (hv : SmallValue v) : ({ s with mem := s.mem.write k v } : State).SmallValues := by
  obtain ⟨hregs, hcells⟩ := hs
  refine ⟨hregs, fun j => ?_⟩
  by_cases hj : j = k
  · rw [hj, cell_write_same s k v hwf]; exact hv
  · rw [cell_write_other s k j v hj]; exact hcells j

/-- Every step keeps the memory list canonical. -/
theorem step_keeps_wf {s t : State} (hwf : s.mem.wf = true) (h : step s = .next t) : t.mem.wf = true := by
  obtain ⟨-, -, ⟨b, v, rfl, -⟩ | ⟨b, c, rfl, -⟩ | ⟨rfl, -⟩ | ⟨addr, rfl, -⟩⟩ := step_cases h
  · exact hwf
  · exact wf_write s.mem c.toNat (s.reg b) hwf
  · exact hwf
  · exact hwf

/-- Every step keeps every value in the range of R25, for each legal `XLEN`. -/
theorem step_keeps_smallValues {s t : State} (hx : 14 ≤ s.params.xlen) (hwf : s.mem.wf = true)
    (hs : s.SmallValues) (h : step s = .next t) : t.SmallValues := by
  obtain ⟨hregs, hcells⟩ := hs
  obtain ⟨-, -, ⟨b, v, rfl, hv⟩ | ⟨b, c, rfl, -⟩ | ⟨rfl, -⟩ | ⟨addr, rfl, -⟩⟩ := step_cases h
  · refine smallValues_set ⟨hregs, hcells⟩ b ?_
    obtain ⟨c, -, rfl⟩ | ⟨c, -, -, rfl⟩ | ⟨c, -, rfl⟩ := hv
    · rw [constOperand_of_legal hx]; exact smallValue_field c
    · exact hcells c.toNat
    · rw [neg_of_smallValue hx (hregs c)]; exact smallValue_neg (hregs c)
  · exact smallValues_write ⟨hregs, hcells⟩ hwf c.toNat (hregs b)
  · exact ⟨hregs, hcells⟩
  · exact ⟨hregs, hcells⟩

/-! ### The same machine with other parameters -/

/-- The same state with all parameters replaced; `State.withXlen` and `State.withUnrec` replace one. -/
def State.withParams (s : State) (q : Config.Params) : State := { s with params := q }

/-- An answer with the parameters of its state replaced. -/
def resultWithParams (q : Config.Params) : Result → Result
  | .next t => .next (t.withParams q)
  | .fault r => .fault r
  | .refused r => .refused r

theorem sameArchState_withParams (s : State) (q : Config.Params) : sameArchState s (s.withParams q) :=
  ⟨rfl, rfl, rfl, rfl, rfl⟩

/-- The width of `c` depends on `CW_UNREC` for the unrecognised opcodes alone (R80). -/
theorem cw_eq_of_recognized {a : Opcode} (ha : classify a ≠ .unrecognized) (u v : Config.UnrecWidth) :
    cw u a = cw v a := by
  by_cases hwide : a = 7#6 ∨ a = 51#6
  · simp only [cw, if_pos hwide]
  by_cases hnarrow : a = 49#6 ∨ a = 55#6
  · simp only [cw, if_neg hwide, if_pos hnarrow]
  · obtain ⟨h7, h51⟩ := not_or.1 hwide
    obtain ⟨h49, h55⟩ := not_or.1 hnarrow
    exact absurd (by simp [classify, h7, h51, h49, h55]) ha

/-- Whatever `CW_UNREC` a word is decoded with, it does the same: the width concerns the unused `c` of an
unrecognised opcode alone (R69, R104). -/
theorem exec_instrOfWord (u v : Config.UnrecWidth) (w : Word) (s : State) :
    exec (instrOfWord u w) s = exec (instrOfWord v w) s := by
  by_cases ha : classify (w.extractLsb' 0 6) = .unrecognized
  · simp [instrOfWord, unpack, Fields.toInstr, ha, exec_unrecognized]
  · simp only [instrOfWord, unpack, cw_eq_of_recognized ha u v]

/-- An instruction with the same constant, negations and capacity gives the same state but for the parameters. -/
theorem exec_withParams (i : Instr) (s : State) (q : Config.Params) (hcap : q.capacity = s.params.capacity)
    (hconst : ∀ c, constOperand q.xlen c = constOperand s.params.xlen c)
    (hneg : ∀ r, neg q.xlen (s.reg r) = neg s.params.xlen (s.reg r)) :
    exec i (s.withParams q) = resultWithParams q (exec i s) := by
  cases i with
  | loadConst b c =>
    rw [exec_loadConst, exec_loadConst, ← hconst]; rfl
  | readMem b c =>
    obtain h | h := Nat.lt_or_ge c.toNat s.params.capacity
    · rw [exec_readMem_of_lt b c s h, exec_readMem_of_lt b c (s.withParams q) (hcap.symm ▸ h)]; rfl
    · rw [exec_readMem_of_ge b c s h, exec_readMem_of_ge b c (s.withParams q) (hcap.symm ▸ h)]; rfl
  | writeMem b c =>
    obtain h | h := Nat.lt_or_ge c.toNat s.params.capacity
    · rw [exec_writeMem_of_lt b c s h, exec_writeMem_of_lt b c (s.withParams q) (hcap.symm ▸ h)]; rfl
    · rw [exec_writeMem_of_ge b c s h, exec_writeMem_of_ge b c (s.withParams q) (hcap.symm ▸ h)]; rfl
  | unaryMinus b c =>
    rw [exec_unaryMinus, exec_unaryMinus, ← hneg]; rfl
  | unrecognized a b c => rfl

/-- A step likewise: `PCW` is not read, and `CW_UNREC` does not matter by `exec_instrOfWord`. -/
theorem step_withParams (s : State) (q : Config.Params) (hcap : q.capacity = s.params.capacity)
    (hconst : ∀ c, constOperand q.xlen c = constOperand s.params.xlen c)
    (hneg : ∀ r, neg q.xlen (s.reg r) = neg s.params.xlen (s.reg r)) :
    step (s.withParams q) = resultWithParams q (step s) := by
  have hexec : exec (s.withParams q).nextInstr (s.withParams q) = resultWithParams q (exec s.nextInstr s) := by
    rw [← exec_withParams s.nextInstr s q hcap hconst hneg]
    exact exec_instrOfWord q.cwUnrec s.params.cwUnrec (wordOf s.fetch) (s.withParams q)
  cases hf : s.fault with
  | some r => simp [step, State.withParams, hf, resultWithParams]
  | none =>
    by_cases hp : s.pc < s.stream.length
    · rw [step_of_running s hf hp, step_of_running (s.withParams q) hf hp, hexec]
    · simp [step, State.running, State.withParams, hf, hp, resultWithParams]

/-- On values in the range of R25, a step does the same for all legal parameters of one `CAPACITY`. -/
theorem step_withParams_of_legal {s : State} {q : Config.Params} (hcap : q.capacity = s.params.capacity)
    (hx : 14 ≤ s.params.xlen) (hq : 14 ≤ q.xlen) (hs : s.SmallValues) :
    step (s.withParams q) = resultWithParams q (step s) := by
  obtain ⟨hregs, -⟩ := hs
  refine step_withParams s q hcap (fun c => ?_) (fun r => ?_)
  · rw [constOperand_of_legal hq, constOperand_of_legal hx]
  · rw [neg_of_smallValue hq (hregs r), neg_of_smallValue hx (hregs r)]

/-- So does a run, since every step keeps the premises. -/
theorem runFor_withParams {q : Config.Params} (hq : 14 ≤ q.xlen) (n : Nat) {s : State}
    (hcap : q.capacity = s.params.capacity) (hx : 14 ≤ s.params.xlen) (hwf : s.mem.wf = true) (hs : s.SmallValues) :
    (s.withParams q).runFor n = (s.runFor n).withParams q := by
  induction n generalizing s with
  | zero => rfl
  | succ n ih =>
    simp only [State.runFor, step_withParams_of_legal hcap hx hq hs]
    cases hstep : step s with
    | next t =>
      obtain ⟨-, hparams⟩ := stepKeepsStreamAndParameters s t hstep
      exact ih (by rw [hparams, hcap]) (by rw [hparams]; exact hx) (step_keeps_wf hwf hstep)
        (step_keeps_smallValues hx hwf hs hstep)
    | fault r => rfl
    | refused r => rfl

/-- A run keeps its parameters (R22). -/
theorem runFor_params (n : Nat) (s : State) : (s.runFor n).params = s.params := by
  induction n generalizing s with
  | zero => rfl
  | succ n ih =>
    unfold State.runFor
    cases hstep : step s with
    | next t =>
      obtain ⟨-, hparams⟩ := stepKeepsStreamAndParameters s t hstep
      exact (ih t).trans hparams
    | fault r => rfl
    | refused r => rfl

/-- A dump's rows come from the memory alone. -/
theorem rowsFrom_withParams (s : State) (q : Config.Params) (start n : Nat) :
    (s.withParams q).rowsFrom start n = s.rowsFrom start n := by
  induction n generalizing start with
  | zero => rfl
  | succ n ih => exact congrArg ((start, s.cell start) :: ·) (ih (start + 1))

/-- Of the parameters, a dump reads `CAPACITY` alone. -/
theorem dump_withParams (s : State) (q : Config.Params) (hcap : q.capacity = s.params.capacity) (start stop : Int) :
    (s.withParams q).dump start stop = s.dump start stop := by
  have hcap' : (s.withParams q).params.capacity = s.params.capacity := hcap
  have hdone : (s.withParams q).done = s.done := rfl
  simp only [State.dump, hdone, hcap', rowsFrom_withParams]

/-- Settles O42: the fresh state of `q` is that of `p` with the parameters replaced, the runs stay so related, and
neither the architectural state nor the dump shows the difference. -/
theorem runIsAFunctionOfStreamAndCapacity : Obligations.RunIsAFunctionOfStreamAndCapacity := by
  intro p q stream hp hq hcap
  have hp14 : 14 ≤ p.xlen := of_decide_eq_true hp
  have hq14 : 14 ≤ q.xlen := of_decide_eq_true hq
  have hrun : (State.fresh q stream).runToEnd = (State.fresh p stream).runToEnd.withParams q :=
    runFor_withParams hq14 (State.fresh p stream).stepsLeft hcap.symm hp14 rfl (fresh_smallValues p stream)
  have hend : (State.fresh p stream).runToEnd.params = p := runFor_params _ _
  rw [hrun]
  refine ⟨sameArchState_withParams _ q, fun start stop => ?_⟩
  exact (dump_withParams _ q (by rw [hend, hcap]) start stop).symm

end Sys2Proof.Machine

/-!
SUPPORT. The statements about the encoding (`30_encoding.md`): the fields of a word in numbers, and the assembler's
lines, log and binary.
-/

namespace Sys2Proof.Machine

/-! ### The instruction of a word -/

/-- The opcode of a word is `k` when its low six bits are (R62). -/
theorem unpack_a_eq_iff (u : Config.UnrecWidth) (w : Word) {k : Nat} (hk : k < 64) :
    (unpack u w).a = BitVec.ofNat 6 k ↔ w.toNat % 64 = k := by
  rw [← BitVec.toNat_inj, unpack_a, BitVec.toNat_ofNat, Nat.mod_eq_of_lt hk]

/-- The width of `c` by the low six bits of the word (R80). -/
theorem cw_unpack (u : Config.UnrecWidth) (w : Word) :
    cw u (unpack u w).a = if w.toNat % 64 = 7 ∨ w.toNat % 64 = 51 then 13
      else if w.toNat % 64 = 49 ∨ w.toNat % 64 = 55 then 5 else u.bits := by
  simp only [cw, unpack_a_eq_iff u w (by decide : 7 < 64), unpack_a_eq_iff u w (by decide : 51 < 64),
    unpack_a_eq_iff u w (by decide : 49 < 64), unpack_a_eq_iff u w (by decide : 55 < 64)]

/-- The variant by the low six bits of the word (R67, R90). -/
theorem classify_unpack (u : Config.UnrecWidth) (w : Word) :
    classify (unpack u w).a = if w.toNat % 64 = 7 then .loadConst else if w.toNat % 64 = 49 then .readMem
      else if w.toNat % 64 = 51 then .writeMem else if w.toNat % 64 = 55 then .unaryMinus else .unrecognized := by
  simp only [classify, unpack_a_eq_iff u w (by decide : 7 < 64), unpack_a_eq_iff u w (by decide : 51 < 64),
    unpack_a_eq_iff u w (by decide : 49 < 64), unpack_a_eq_iff u w (by decide : 55 < 64)]

theorem unpack_a_eq_ofNat (u : Config.UnrecWidth) (w : Word) : (unpack u w).a = BitVec.ofNat 6 w.toNat :=
  BitVec.eq_of_toNat_eq ((unpack_a u w).trans (BitVec.toNat_ofNat w.toNat 6).symm)

theorem unpack_b_eq_ofNat (u : Config.UnrecWidth) (w : Word) : (unpack u w).b = BitVec.ofNat 5 (w.toNat / 64) :=
  BitVec.eq_of_toNat_eq ((unpack_b u w).trans (BitVec.toNat_ofNat (w.toNat / 64) 5).symm)

theorem unpack_c_eq_ofNat (u : Config.UnrecWidth) (w : Word) :
    (unpack u w).c = BitVec.ofNat 13 (w.toNat / 2048 % 2 ^ cw u (unpack u w).a) := by
  rw [← unpack_c u w, BitVec.ofNat_toNat, BitVec.setWidth_eq]

/-- A wide opcode's `c` is the 13 bits from bit 11 (R63). -/
theorem unpack_c_of_wide {u : Config.UnrecWidth} {w : Word} (h : cw u (unpack u w).a = 13) :
    (unpack u w).c = BitVec.ofNat 13 (w.toNat / 2048) := by
  apply BitVec.eq_of_toNat_eq
  rw [unpack_c, h, BitVec.toNat_ofNat]

/-- A narrow opcode's `c` is the 5 bits from bit 11 (R64). -/
theorem setWidth_unpack_c_of_narrow {u : Config.UnrecWidth} {w : Word} (h : cw u (unpack u w).a = 5) :
    (unpack u w).c.setWidth 5 = BitVec.ofNat 5 (w.toNat / 2048) := by
  apply BitVec.eq_of_toNat_eq
  rw [BitVec.toNat_setWidth, unpack_c, h, BitVec.toNat_ofNat, Nat.mod_mod]

/-- Settles O5: one case per value of the low six bits, which give the variant (`classify_unpack`) and the width of
`c` (`cw_unpack`). -/
theorem opcodeSelectsInstructionAndFields : Obligations.OpcodeSelectsInstructionAndFields := by
  intro u w b hb
  rw [instrOfWord, Fields.toInstr, classify_unpack, unpack_b_eq_ofNat, ← hb]
  split_ifs with h7 h49 h51 h55
  · rw [unpack_c_of_wide (by simp [cw_unpack, h7])]
  · rw [setWidth_unpack_c_of_narrow (by simp [cw_unpack, h49])]
  · rw [unpack_c_of_wide (by simp [cw_unpack, h51])]
  · rw [setWidth_unpack_c_of_narrow (by simp [cw_unpack, h55])]
  · have hcw : cw u (unpack u w).a = u.bits := by simp [cw_unpack, h7, h49, h51, h55]
    rw [unpack_a_eq_ofNat, unpack_c_eq_ofNat, hcw]

/-! ### The lines of a source text -/

theorem pieces_ne_nil (p : Char → Bool) (t : Text) : pieces p t ≠ [] := by
  cases t with
  | nil => exact List.cons_ne_nil _ _
  | cons c rest =>
    unfold pieces
    split
    · exact List.cons_ne_nil _ _
    · split <;> exact List.cons_ne_nil _ _

theorem pieces_cons_of_sep {p : Char → Bool} {c : Char} (hc : p c = true) (rest : Text) :
    pieces p (c :: rest) = [] :: pieces p rest := if_pos hc

/-- A character that does not separate goes to the first piece of the rest. -/
theorem pieces_cons_of_not_sep {p : Char → Bool} {c : Char} (hc : p c = false) (rest : Text) :
    pieces p (c :: rest) = (pieces p rest).modifyHead (c :: ·) := by
  obtain ⟨l, ls, hrest⟩ := List.exists_cons_of_ne_nil (pieces_ne_nil p rest)
  simp [pieces, hc, hrest]

/-- Cutting into pieces is the library's `List.splitOnP`. -/
theorem pieces_eq_splitOnP (p : Char → Bool) (t : Text) : pieces p t = t.splitOnP p := by
  induction t with
  | nil => rw [List.splitOnP_nil]; rfl
  | cons c rest ih =>
    rw [List.splitOnP_cons_eq_if_modifyHead, ← ih]
    cases hc : p c with
    | true => exact pieces_cons_of_sep hc rest
    | false => exact pieces_cons_of_not_sep hc rest

/-- No piece holds a separator. -/
theorem not_sep_of_mem_pieces {p : Char → Bool} {t piece : Text} {c : Char} (ht : piece ∈ pieces p t)
    (hc : c ∈ piece) : p c = false := by
  induction t generalizing piece with
  | nil =>
    obtain rfl : piece = [] := by simpa [pieces] using ht
    exact absurd hc List.not_mem_nil
  | cons d rest ih =>
    cases hd : p d with
    | true =>
      rw [pieces_cons_of_sep hd] at ht
      obtain rfl | ht := List.mem_cons.1 ht
      · exact absurd hc List.not_mem_nil
      · exact ih ht hc
    | false =>
      obtain ⟨l, ls, hrest⟩ := List.exists_cons_of_ne_nil (pieces_ne_nil p rest)
      rw [pieces_cons_of_not_sep hd, hrest, List.modifyHead_cons] at ht
      rw [hrest] at ih
      obtain rfl | ht := List.mem_cons.1 ht
      · obtain rfl | hc := List.mem_cons.1 hc
        · exact hd
        · exact ih List.mem_cons_self hc
      · exact ih (List.mem_cons_of_mem l ht) hc

/-- The lines of a source, joined by line feeds, are the source. -/
theorem intercalate_linesOf (src : Text) : ['\n'].intercalate (linesOf src) = src := by
  rw [linesOf, pieces_eq_splitOnP, ← List.splitOn_eq_splitOnP, List.intercalate_splitOn]

theorem newline_notMem_of_mem_linesOf {src line : Text} (h : line ∈ linesOf src) : '\n' ∉ line := by
  intro hn
  exact absurd (not_sep_of_mem_pieces h hn) (by decide)

/-! ### What a line assembles to -/

/-- A blank line or a comment assembles to nothing (R74). -/
theorem assembleLine_of_not_instructionLine {line : Text} (h : isInstructionLine line = false) :
    assembleLine line = .ok none := by
  unfold isInstructionLine at h
  unfold assembleLine
  cases hd : line.dropWhile Char.isWhitespace with
  | nil => rfl
  | cons c rest =>
    rw [hd] at h
    obtain rfl : c = '#' := by simpa using h
    rfl

/-- A text that does not start with white space has a token. -/
theorem tokensOf_cons_ne_nil {c : Char} (hc : c.isWhitespace = false) (rest : Text) : tokensOf (c :: rest) ≠ [] := by
  obtain ⟨l, ls, hrest⟩ := List.exists_cons_of_ne_nil (pieces_ne_nil Char.isWhitespace rest)
  simp [tokensOf, pieces_cons_of_not_sep hc, hrest]

/-- An instruction line has a first token, and assembles as its tokens do. -/
theorem assembleLine_of_instructionLine {line : Text} (h : isInstructionLine line = true) :
    ∃ token args, tokensOf line = token :: args ∧ assembleLine line = assembleTokens (token :: args) := by
  unfold isInstructionLine at h
  split at h
  · cases h
  next c rest hd =>
    have hspace := List.head?_dropWhile_not Char.isWhitespace line
    rw [hd] at hspace
    have htokens : tokensOf line ≠ [] := by
      rw [← tokensOf_dropWhile, hd]
      exact tokensOf_cons_ne_nil hspace rest
    have hcomment : (line.dropWhile Char.isWhitespace).head? ≠ some '#' := by simpa [hd] using h
    obtain ⟨token, args, heq⟩ := List.exists_cons_of_ne_nil htokens
    exact ⟨token, args, heq, heq ▸ assembleLine_of_tokens line htokens hcomment⟩

theorem assembleArgs_ok {m : Mnemonic} {args : List Text} {e : LogEntry} (h : assembleArgs m args = .ok e) :
    ∃ b c, e = logEntryOf m (assembleFields m b c) := by
  unfold assembleArgs at h
  split at h
  · split at h
    · cases h
    next b _ =>
      split at h
      · cases h
      next c _ => exact ⟨b, c, (Except.ok.inj h).symm⟩
  · cases h

/-- Tokens that assemble at all give the entry of a mnemonic and two integers (R146, R150). -/
theorem assembleTokens_cons_ok {token : Text} {args : List Text} {o : Option LogEntry}
    (h : assembleTokens (token :: args) = .ok o) :
    ∃ m b c, mnemonicOf token = some m ∧ o = some (logEntryOf m (assembleFields m b c)) := by
  rw [assembleTokens] at h
  split at h
  · cases h
  next m hm =>
    cases hargs : assembleArgs m args with
    | error e => rw [hargs] at h; cases h
    | ok e =>
      rw [hargs] at h
      obtain ⟨b, c, rfl⟩ := assembleArgs_ok hargs
      exact ⟨m, b, c, hm, (Except.ok.inj h).symm⟩

/-- So an instruction line that assembles gives such an entry, never nothing. -/
theorem assembleLine_ok_of_instructionLine {line : Text} {o : Option LogEntry} (hi : isInstructionLine line = true)
    (h : assembleLine line = .ok o) : ∃ m b c, o = some (logEntryOf m (assembleFields m b c)) := by
  obtain ⟨token, args, -, heq⟩ := assembleLine_of_instructionLine hi
  obtain ⟨m, b, c, -, ho⟩ := assembleTokens_cons_ok (heq ▸ h)
  exact ⟨m, b, c, ho⟩

/-- A line that gives an entry is an instruction line. -/
theorem isInstructionLine_of_some {line : Text} {e : LogEntry} (h : assembleLine line = .ok (some e)) :
    isInstructionLine line = true := by
  by_contra hi
  rw [assembleLine_of_not_instructionLine (Bool.eq_false_iff.2 hi)] at h
  cases h

/-- The entry of a line holds the bytes of an encoding, 4 in number (R147). -/
theorem rawBytes_length_of_assembleLine {line : Text} {e : LogEntry} (h : assembleLine line = .ok (some e)) :
    e.rawBytes.length = 4 := by
  obtain ⟨m, b, c, he⟩ := assembleLine_ok_of_instructionLine (isInstructionLine_of_some h) h
  obtain rfl := Option.some.inj he
  rfl

/-- Settles O54: with the indent dropped, nothing or a `#` is left. -/
theorem blankAndCommentLinesProduceNothing : Obligations.BlankAndCommentLinesProduceNothing := by
  intro pre rest hpre
  have hblank : isInstructionLine pre = false := by
    rw [isInstructionLine, List.dropWhile_eq_nil_iff.2 hpre]
  have hcomment : isInstructionLine (pre ++ '#' :: rest) = false := by
    rw [isInstructionLine, List.dropWhile_append_of_pos hpre]; rfl
  exact ⟨assembleLine_of_not_instructionLine hblank, assembleLine_of_not_instructionLine hcomment⟩

/-! ### The log and the binary of a source -/

/-- A line that is no instruction adds nothing to the log. -/
theorem assembleLines_cons_of_not_instructionLine {line : Text} (h : isInstructionLine line = false)
    (rest : List Text) : assembleLines (line :: rest) = assembleLines rest := by
  rw [assembleLines, assembleLine_of_not_instructionLine h]

/-- An instruction line puts its entry before those of the rest, when both assemble. -/
theorem assembleLines_cons_ok_iff {line : Text} (hi : isInstructionLine line = true) (rest : List Text)
    (log : List LogEntry) : assembleLines (line :: rest) = .ok log ↔
      ∃ e log', log = e :: log' ∧ assembleLine line = .ok (some e) ∧ assembleLines rest = .ok log' := by
  rw [assembleLines]
  cases hline : assembleLine line with
  | error x => simp
  | ok o =>
    obtain ⟨m, b, c, rfl⟩ := assembleLine_ok_of_instructionLine hi hline
    cases hrest : assembleLines rest with
    | error x => simp
    | ok log' => simp [eq_comm]

/-- The pass succeeds with a log exactly when the instruction lines, one by one, assemble to its entries
(R79, R147). -/
theorem assembleLines_ok_iff (lines : List Text) (log : List LogEntry) :
    assembleLines lines = .ok log ↔
      (lines.filter isInstructionLine).map assembleLine = log.map fun e => .ok (some e) := by
  induction lines generalizing log with
  | nil => simp [assembleLines]
  | cons line rest ih =>
    cases hi : isInstructionLine line with
    | false =>
      rw [assembleLines_cons_of_not_instructionLine hi, List.filter_cons_of_neg (by simp [hi])]
      exact ih log
    | true =>
      rw [assembleLines_cons_ok_iff hi, List.filter_cons_of_pos hi]
      cases log with
      | nil => simp
      | cons e log' => simp [ih]

theorem binaryOf_append (lx ly : List LogEntry) : binaryOf (lx ++ ly) = binaryOf lx ++ binaryOf ly :=
  List.flatMap_append

/-- Settles O57: by `assembleLines_ok_iff`, since filtering and mapping the lines of both sources appends. -/
theorem sourceOrderIsInstructionOrder : Obligations.SourceOrderIsInstructionOrder := by
  intro xs ys lx ly hx hy
  refine ⟨?_, binaryOf_append lx ly⟩
  rw [assembleLines_ok_iff] at hx hy ⊢
  rw [List.filter_append, List.map_append, List.map_append, hx, hy]

/-- Entry `k` of the log is what instruction line `k` assembles to. -/
theorem exists_line_of_getElem?_log {src : Text} {log : List LogEntry} {k : Nat} {e : LogEntry}
    (hlines : (instructionLines src).map assembleLine = log.map fun e => .ok (some e)) (hk : log[k]? = some e) :
    ∃ line, (instructionLines src)[k]? = some line ∧ assembleLine line = .ok (some e) := by
  have hget := congrArg (·[k]?) hlines
  simpa [hk] using hget

/-- Where every entry has 4 bytes, so many times 4 has the binary. -/
theorem binaryOf_length {log : List LogEntry} (h : ∀ e ∈ log, e.rawBytes.length = 4) :
    (binaryOf log).length = 4 * log.length := by
  rw [binaryOf, List.length_flatMap, List.map_congr_left h]
  simp [Nat.mul_comm]

/-- Where every entry has 4 bytes, those of entry `k` stand at offset `4 * k` (R149). -/
theorem take_drop_binaryOf {log : List LogEntry} {k : Nat} {e : LogEntry} (h : ∀ e ∈ log, e.rawBytes.length = 4)
    (hk : log[k]? = some e) : ((binaryOf log).drop (4 * k)).take 4 = e.rawBytes := by
  obtain ⟨hlt, rfl⟩ := List.getElem?_eq_some_iff.1 hk
  have hsplit : binaryOf log = binaryOf (log.take k) ++ (log[k].rawBytes ++ binaryOf (log.drop (k + 1))) := by
    conv_lhs => rw [← List.take_append_drop k log, List.drop_eq_getElem_cons hlt]
    exact binaryOf_append _ _
  have hbefore : (binaryOf (log.take k)).length = 4 * k := by
    rw [binaryOf_length fun e he => h e (List.mem_of_mem_take he), List.length_take, Nat.min_eq_left hlt.le]
  rw [hsplit, List.drop_left' hbefore, List.take_left' (h _ (List.getElem_mem hlt))]

/-- Settles O58: `assembleLines_ok_iff` ties the log to the lines one by one, so every entry has the 4 bytes of its
line. -/
theorem binaryHasFourBytesPerInstruction : Obligations.BinaryHasFourBytesPerInstruction := by
  intro src log
  have hiff : assemble src = .ok log ↔ (instructionLines src).map assembleLine = log.map fun e => .ok (some e) :=
    assembleLines_ok_iff (linesOf src) log
  refine ⟨⟨intercalate_linesOf src, fun _ => newline_notMem_of_mem_linesOf⟩, hiff, fun hok => ?_⟩
  have hlines := hiff.1 hok
  have hlength : log.length = (instructionLines src).length := by
    simpa using (congrArg List.length hlines).symm
  have hfour : ∀ e ∈ log, e.rawBytes.length = 4 := by
    intro e he
    obtain ⟨k, hk⟩ := List.mem_iff_getElem?.1 he
    obtain ⟨line, -, hline⟩ := exists_line_of_getElem?_log hlines hk
    exact rawBytes_length_of_assembleLine hline
  refine ⟨fun eol => ?_, hlength, ?_, fun k e hk => ?_⟩
  · rw [assembleFiles, hok]; rfl
  · rw [binaryOf_length hfour, hlength]
  · exact ⟨take_drop_binaryOf hfour hk, exists_line_of_getElem?_log hlines hk⟩

end Sys2Proof.Machine

/-!
SUPPORT. The statements about the codec (`40_codec.md`): what `encode` packs, in numbers, and what `decode` slices.
-/

namespace Sys2Proof

/-! ### What packing and slicing are to each other -/

/-- The span of `c` by the opcode's number (R80). -/
theorem two_pow_cw (u : Config.UnrecWidth) (a : Opcode) :
    2 ^ cw u a = if a.toNat = 7 ∨ a.toNat = 51 then 8192 else if a.toNat = 49 ∨ a.toNat = 55 then 32
      else 2 ^ u.bits := by
  simp only [cw, ← BitVec.toNat_inj, BitVec.toNat_ofNat]
  split_ifs <;> rfl

/-- Slicing a packed word gives the fields back, `c` cut to the width of its opcode. -/
theorem unpack_pack (u : Config.UnrecWidth) (f : Fields) :
    unpack u (pack u f) = ⟨f.a, f.b, keepLow (cw u f.a) f.c⟩ := by
  have hn := pack_toNat u f
  have hafield := f.a.isLt
  have hbfield := f.b.isLt
  have ha : (unpack u (pack u f)).a = f.a := by
    apply BitVec.eq_of_toNat_eq
    rw [unpack_a]; omega
  have hb : (unpack u (pack u f)).b = f.b := by
    apply BitVec.eq_of_toNat_eq
    rw [unpack_b]; omega
  have hc : (unpack u (pack u f)).c = keepLow (cw u f.a) f.c := by
    apply BitVec.eq_of_toNat_eq
    have hdiv : (pack u f).toNat / 2048 = f.c.toNat % 2 ^ cw u f.a := by omega
    rw [unpack_c, ha, hdiv, Nat.mod_mod, keepLow_toNat _ _ (cw_le u f.a)]
  rw [← hc, ← ha, ← hb]

/-- The mask of R8 is the floor modulus. -/
theorem ofInt_toNat (n : Nat) (v : Int) : ((BitVec.ofInt n v).toNat : Int) = v % 2 ^ n := by
  have hpow : (2 : Int) ^ n ≠ 0 := by positivity
  rw [BitVec.toNat_ofInt, Nat.cast_pow, Nat.cast_ofNat, Int.toNat_of_nonneg (Int.emod_nonneg v hpow)]

/-- Masking an integer to the 13 bits of the port first and to the opcode's width then is masking it once. -/
theorem keepLow_ofInt_toNat (u : Config.UnrecWidth) (a : Opcode) (c : Int) :
    ((keepLow (cw u a) (BitVec.ofInt 13 c)).toNat : Int) = c % 2 ^ cw u a := by
  have hdvd : (2 : Int) ^ cw u a ∣ 2 ^ 13 := pow_dvd_pow 2 (cw_le u a)
  rw [keepLow_toNat _ _ (cw_le u a), Int.natCast_mod, ofInt_toNat, Nat.cast_pow, Nat.cast_ofNat,
    Int.emod_emod_of_dvd c hdvd]

/-! ### Decoding -/

theorem decode_of_le {bytes : List Byte} (h : bytes.length ≤ 4) (u : Config.UnrecWidth) :
    decode u bytes = .ok (unpack u (wordOf bytes)) := if_pos h

theorem decode_of_gt {bytes : List Byte} (h : 4 < bytes.length) (u : Config.UnrecWidth) :
    decode u bytes = .error (.tooManyBytes bytes.length) := if_neg (Nat.not_le.2 h)

/-- What the encoder makes of three integers decodes to the three masked fields. -/
theorem decode_encode (u : Config.UnrecWidth) (a b c : Int) :
    decode u (encode u a b c) = .ok ⟨BitVec.ofInt 6 a, BitVec.ofInt 5 b,
      keepLow (cw u (BitVec.ofInt 6 a)) (BitVec.ofInt 13 c)⟩ := by
  have hlength : (encode u a b c).length ≤ 4 := Nat.le_refl 4
  rw [decode_of_le hlength, encode, wordOf_bytesOf, unpack_pack]
  rfl

/-- Settles O6: the fields come back masked (`decode_encode`), and masking keeps a valid triple as it is. -/
theorem decodeInvertsEncodeOnValidTriples : Obligations.DecodeInvertsEncodeOnValidTriples := by
  intro u a b c hvalid
  obtain ⟨ha0, ha, hb0, hb, hc0, hc⟩ := of_decide_eq_true hvalid
  refine ⟨_, decode_encode u a b c, ?_, ?_, ?_⟩
  · rw [ofInt_toNat]; exact Int.emod_eq_of_lt ha0 ha
  · rw [ofInt_toNat]; exact Int.emod_eq_of_lt hb0 hb
  · rw [keepLow_ofInt_toNat]; exact Int.emod_eq_of_lt hc0 hc

/-- Settles O3: the number is the word's (`wordOf_toNat`), and `unpack` slices it. -/
theorem decodeReadsFieldsOfTheWord : Obligations.DecodeReadsFieldsOfTheWord := by
  intro u bytes n hlength hn
  rw [← wordOf_toNat] at hn
  subst hn
  refine ⟨_, decode_of_le hlength u, unpack_a u _, unpack_b u _, ?_⟩
  rw [unpack_c, two_pow_cw, unpack_a]

/-- Zero bytes at the end are what the decoder reads there anyway. -/
theorem getD_append_replicate (bytes : List Byte) (k i : Nat) :
    (bytes ++ List.replicate k 0#8).getD i 0#8 = bytes.getD i 0#8 := by
  obtain h | h := Nat.lt_or_ge i bytes.length
  · rw [List.getD_append _ _ _ _ h]
  · rw [List.getD_append_right _ _ _ _ h, List.getD_eq_getElem?_getD,
      List.getElem?_getD_replicate_default_eq, List.getD_eq_default _ _ h]

theorem wordOf_append_replicate (bytes : List Byte) (k : Nat) :
    wordOf (bytes ++ List.replicate k 0#8) = wordOf bytes := by
  simp only [wordOf, getD_append_replicate]

/-- Settles O4: padding changes neither the word (`wordOf_append_replicate`) nor that there are at most 4 bytes. -/
theorem decodePadsShortInputWithZeros : Obligations.DecodePadsShortInputWithZeros := by
  intro u bytes
  refine ⟨fun h => ⟨?_, _, decode_of_le h u⟩, fun h => decode_of_gt h u, ?_⟩
  · have hpadded : (bytes ++ List.replicate (4 - bytes.length) 0#8).length ≤ 4 := by simp; omega
    rw [decode_of_le h, decode_of_le hpadded, wordOf_append_replicate]
  · cases u <;> decide

/-! ### Encoding -/

/-- The packed word as a number: each integer reduced to its field's span (R81). -/
theorem pack_reduce_toNat (u : Config.UnrecWidth) (a b c : Int) :
    ((pack u (reduce a b c)).toNat : Int) =
      a % 64 + b % 32 * 64 + c % 2 ^ cw u (BitVec.ofInt 6 a) * 2048 := by
  rw [pack_toNat, ← keepLow_toNat _ _ (cw_le u _)]
  push_cast
  rw [reduce, keepLow_ofInt_toNat, ofInt_toNat, ofInt_toNat]
  rfl

/-- The four bytes of a word as residues of its number. -/
theorem bytesOf_eq_ofNat (w : Word) :
    bytesOf w = [BitVec.ofNat 8 w.toNat, BitVec.ofNat 8 (w.toNat / 256), BitVec.ofNat 8 (w.toNat / 65536),
      BitVec.ofNat 8 (w.toNat / 16777216)] := by
  simp [bytesOf, BitVec.extractLsb', Nat.shiftRight_eq_div_pow]

/-- The span of `c` by the integer whose low six bits are the opcode (R80, R83). -/
theorem two_pow_cw_ofInt (u : Config.UnrecWidth) (a : Int) :
    (2 : Int) ^ cw u (BitVec.ofInt 6 a) = if a % 64 = 7 ∨ a % 64 = 51 then 8192
      else if a % 64 = 49 ∨ a % 64 = 55 then 32 else 2 ^ u.bits := by
  have hmasked (k : Nat) : (BitVec.ofInt 6 a).toNat = k ↔ a % 64 = k := by
    have := ofInt_toNat 6 a
    omega
  have hspan := congrArg (Nat.cast (R := Int)) (two_pow_cw u (BitVec.ofInt 6 a))
  simpa only [hmasked, Nat.cast_ite, Nat.cast_pow, Nat.cast_ofNat] using hspan

/-- Settles O1: the number is that of the packed word (`pack_reduce_toNat`). The span is 2 to the width of the
masked opcode's `c` (`two_pow_cw_ofInt`), at most 8192, which bounds the number and so the bytes 2 and 3. -/
theorem encodeMasksEachFieldThenPacks : Obligations.EncodeMasksEachFieldThenPacks := by
  intro u a b c span hspan
  rw [← two_pow_cw_ofInt] at hspan
  have hn := pack_reduce_toNat u a b c
  rw [← hspan] at hn
  have hpos : 0 < span := by rw [hspan]; positivity
  have hle : span ≤ 2 ^ 13 := by rw [hspan]; exact pow_le_pow_right₀ (by decide) (cw_le u _)
  have hc0 := Int.emod_nonneg c hpos.ne'
  have hc := Int.emod_lt_of_pos c hpos
  have hbound : (pack u (reduce a b c)).toNat < 16777216 := by omega
  refine ⟨(pack u (reduce a b c)).toNat, hn, hbound, fun hnarrow => by omega, ?_⟩
  rw [encode, bytesOf_eq_ofNat, Nat.div_eq_of_lt hbound]

/-- Settles O2: the packed number takes `b` and `c` by their residues only (`pack_reduce_toNat`). -/
theorem encodeTruncatesOutOfRangeArguments : Obligations.EncodeTruncatesOutOfRangeArguments := by
  intro u a b c
  refine congrArg bytesOf (BitVec.eq_of_toNat_eq (Int.ofNat_inj.1 ?_))
  rw [pack_reduce_toNat, pack_reduce_toNat, Int.emod_emod, Int.emod_emod]

end Sys2Proof

namespace Sys2Proof.Machine

/-- Settles O14: each of the four shapes of `exec_cases` is a next state, and a running machine steps by `exec`. -/
theorem everyInstructionAnswersANextState : Obligations.EveryInstructionAnswersANextState := by
  have hexec (i : Instr) (s : State) : ∃ t, exec i s = .next t := by
    obtain ⟨_, _, h, -⟩ | ⟨_, _, -, -, h⟩ | ⟨-, h⟩ | ⟨_, -, -, h, -⟩ := exec_cases i s
    · exact ⟨_, h⟩
    · exact ⟨_, h⟩
    · exact ⟨_, h⟩
    · exact ⟨_, h⟩
  refine ⟨hexec, fun s hrunning => ?_⟩
  obtain ⟨hf, hp⟩ : s.fault = none ∧ s.pc < s.stream.length := by simpa [State.running] using hrunning
  rw [step_of_running s hf hp]
  exact hexec s.nextInstr s

end Sys2Proof.Machine

/-!
SUPPORT. The statements about the sequencer (`41_sequencer.md`): what a step runs, what it may write and where it
leaves `pc`, with the frame of each shape of a step and the change of the stream that they need.
-/

namespace Sys2Proof.Machine

/-! ### The instruction a step runs -/

theorem running_iff (s : State) : s.running = true ↔ s.fault = none ∧ s.pc < s.stream.length := by
  simp [State.running]

/-- A fetched chunk is never too long to decode (R46, R85). -/
theorem decodeInstr_fetch (s : State) : decodeInstr s.params.cwUnrec s.fetch = .ok s.nextInstr := by
  have hlength : s.fetch.length ≤ 4 := by rw [fetch_length]; exact Nat.min_le_left _ _
  rw [decodeInstr, decode_of_le hlength]
  rfl

/-- Settles O11: what the chunk decodes to is `nextInstr`, and a running machine steps by that. -/
theorem stepExecutesTheDecodedInstruction : Obligations.StepExecutesTheDecodedInstruction := by
  intro s i hf hp hdecode
  obtain rfl : s.nextInstr = i := Except.ok.inj ((decodeInstr_fetch s).symm.trans hdecode)
  exact step_of_running s hf hp

/-! ### The frame of each shape of a step -/

theorem wroteOnlyReg_set (s : State) (b : NarrowField) (v : Int) :
    wroteOnlyReg s ({ s with regs := s.regs.set b.toNat v b.isLt } : State).advance b :=
  ⟨fun j hj => reg_set_other s b j v hj, fun _ => rfl, rfl, rfl, rfl, rfl⟩

theorem wroteOnlyCell_write (s : State) (k : Nat) (v : Int) :
    wroteOnlyCell s ({ s with mem := s.mem.write k v } : State).advance k :=
  ⟨fun _ => rfl, fun j hj => cell_write_other s k j v hj, rfl, rfl, rfl, rfl⟩

theorem wroteNothing_advance (s : State) : wroteNothing s s.advance :=
  ⟨fun _ => rfl, fun _ => rfl, rfl, rfl, rfl, rfl⟩

/-- The record holds an address of either format whole: both fit its 13 bits (R29). -/
theorem trappedOnAddress_raise (s : State) {addr : Nat} (h : addr < 8192) :
    trappedOnAddress s (s.raise { cause := .memory, index := addr }) addr :=
  ⟨⟨_, rfl, rfl, rfl, (BitVec.toNat_ofNat addr 13).trans (Nat.mod_eq_of_lt h)⟩, fun _ => rfl, fun _ => rfl, rfl, rfl, rfl⟩

/-- Settles O18: each instruction's own equation, for its address below or from `CAPACITY` where it has one, gives
the state after the step, and that state has one of the four frames. -/
theorem stepWritesAtMostOneRegisterOrCell : Obligations.StepWritesAtMostOneRegisterOrCell := by
  intro s t h
  obtain ⟨-, -, hx⟩ := step_next s t h
  cases hi : s.nextInstr with
  | loadConst b c =>
    rw [hi, exec_loadConst] at hx
    cases hx
    exact wroteOnlyReg_set s b _
  | readMem b c =>
    rw [hi] at hx
    refine ⟨fun hlt => ?_, fun hge => ?_⟩
    · rw [exec_readMem_of_lt b c s hlt] at hx
      cases hx
      exact wroteOnlyReg_set s b _
    · rw [exec_readMem_of_ge b c s hge] at hx
      cases hx
      exact trappedOnAddress_raise s (Nat.lt_trans c.isLt (by decide))
  | writeMem b c =>
    rw [hi] at hx
    refine ⟨fun hlt => ?_, fun hge => ?_⟩
    · rw [exec_writeMem_of_lt b c s hlt] at hx
      cases hx
      exact wroteOnlyCell_write s c.toNat _
    · rw [exec_writeMem_of_ge b c s hge] at hx
      cases hx
      exact trappedOnAddress_raise s c.isLt
  | unaryMinus b c =>
    rw [hi, exec_unaryMinus] at hx
    cases hx
    exact wroteOnlyReg_set s b _
  | unrecognized a b c =>
    rw [hi, exec_unrecognized] at hx
    cases hx
    exact wroteNothing_advance s

/-- Settles O25: the decoder gives such a word the no-operation, whose equation is `exec_unrecognized`. -/
theorem unrecognizedOpcodeOnlyAdvancesPc : Obligations.UnrecognizedOpcodeOnlyAdvancesPc := by
  have hexec (a : Opcode) (b : NarrowField) (c : WideField) (s : State) :
      ∃ t, exec (.unrecognized a b c) s = .next t ∧ wroteNothing s t :=
    ⟨s.advance, exec_unrecognized a b c s, wroteNothing_advance s⟩
  refine ⟨hexec, fun s hrunning hclass => ?_⟩
  obtain ⟨hf, hp⟩ := (running_iff s).1 hrunning
  have hi : ∃ a b c, s.nextInstr = .unrecognized a b c := by
    simp [State.nextInstr, instrOfWord, Fields.toInstr, hclass]
  obtain ⟨a, b, c, hi⟩ := hi
  rw [step_of_running s hf hp, hi]
  exact hexec a b c s

/-! ### Where a step leaves `pc` -/

/-- Settles O15: three of the four shapes of a step end in `advance` and keep the fault record, which was empty
since the machine was running; the fourth records a fault and leaves `pc`. -/
theorem completedStepAdvancesPcByFour : Obligations.CompletedStepAdvancesPcByFour := by
  intro s t h
  obtain ⟨hf, hp, hshape⟩ := step_cases h
  have hend : s.pc + 4 ≤ s.stream.length + 3 := by omega
  obtain ⟨b, v, rfl, -⟩ | ⟨b, c, rfl, -⟩ | ⟨rfl, -⟩ | ⟨addr, rfl, -⟩ := hshape
  · exact .inl ⟨hf, rfl, hend⟩
  · exact .inl ⟨hf, rfl, hend⟩
  · exact .inl ⟨hf, rfl, hend⟩
  · exact .inr ⟨Option.some_ne_none _, rfl⟩

/-! ### The same machine with another stream -/

/-- The same state with the stream replaced. -/
def State.withStream (s : State) (st : List Byte) : State := { s with stream := st }

/-- No instruction reads the stream: with another one it does the same and keeps that one (R102). -/
theorem exec_withStream {i : Instr} {s t : State} (st : List Byte) (h : exec i s = .next t) :
    exec i (s.withStream st) = .next (t.withStream st) := by
  cases i with
  | loadConst b c =>
    rw [exec_loadConst] at h ⊢
    cases h; rfl
  | readMem b c =>
    obtain hlt | hge := Nat.lt_or_ge c.toNat s.params.capacity
    · rw [exec_readMem_of_lt b c s hlt] at h
      cases h
      exact exec_readMem_of_lt b c (s.withStream st) hlt
    · rw [exec_readMem_of_ge b c s hge] at h
      cases h
      exact exec_readMem_of_ge b c (s.withStream st) hge
  | writeMem b c =>
    obtain hlt | hge := Nat.lt_or_ge c.toNat s.params.capacity
    · rw [exec_writeMem_of_lt b c s hlt] at h
      cases h
      exact exec_writeMem_of_lt b c (s.withStream st) hlt
    · rw [exec_writeMem_of_ge b c s hge] at h
      cases h
      exact exec_writeMem_of_ge b c (s.withStream st) hge
  | unaryMinus b c =>
    rw [exec_unaryMinus] at h ⊢
    cases h; rfl
  | unrecognized a b c =>
    rw [exec_unrecognized] at h ⊢
    cases h; rfl

/-- Zero bytes laid after the stream are what the fetch reads there anyway (R45). -/
theorem nextInstr_withStream_padded (s : State) (k : Nat) :
    (s.withStream (s.stream ++ List.replicate k 0#8)).nextInstr = s.nextInstr := by
  have hword : wordOf (s.withStream (s.stream ++ List.replicate k 0#8)).fetch = wordOf s.fetch := by
    rw [wordOf_fetch, wordOf_fetch]
    simp only [State.withStream, getD_append_replicate]
  exact congrArg (instrOfWord s.params.cwUnrec) hword

/-- A stream that has the same instruction at `pc` gives the same step. -/
theorem step_withStream {s t : State} {st : List Byte} (h : step s = .next t) (hp : s.pc < st.length)
    (hi : (s.withStream st).nextInstr = s.nextInstr) : step (s.withStream st) = .next (t.withStream st) := by
  obtain ⟨hf, -, hx⟩ := step_next s t h
  rw [step_of_running (s.withStream st) hf hp, hi]
  exact exec_withStream st hx

/-- Settles O16: the padded twin has the same instruction at `pc`, so it steps alike (`step_withStream`); the lengths and the last `pc` follow from
an aligned `pc` with fewer than 4 bytes left. -/
theorem shortFinalChunkRunsZeroPadded : Obligations.ShortFinalChunkRunsZeroPadded := by
  intro s padded hf haligned hp hshort hpadded
  obtain ⟨-, hsteps⟩ := everyInstructionAnswersANextState
  obtain ⟨t, ht⟩ := hsteps s ((running_iff s).2 ⟨hf, hp⟩)
  have htrunc : s.stream.length % 4 ≠ 0 := by omega
  refine ⟨decide_eq_true htrunc, ?_, t, ht, ?_, fun hcompleted => ?_⟩
  · rw [fetch_length]; omega
  · subst hpadded
    refine step_withStream ht ?_ (nextInstr_withStream_padded s _)
    rw [List.length_append]; exact Nat.lt_add_right _ hp
  · obtain ⟨-, hpc, -⟩ | ⟨hfault, -⟩ := completedStepAdvancesPcByFour s t ht
    · exact ⟨by omega, by omega⟩
    · exact absurd hcompleted hfault

end Sys2Proof.Machine

/-!
SUPPORT. The statements about the data movement instructions (`42_data_movement.md`): the word of each as a number,
and its result with the frame of its shape.
-/

namespace Sys2Proof

/-! ### The word of an instruction as a number -/

/-- A `c` that fits its opcode's width is packed whole (R81). -/
theorem encodeWord_toNat_of_fits {u : Config.UnrecWidth} {i : Instr}
    (h : i.fields.c.toNat < 2 ^ cw u i.fields.a) :
    (encodeWord u i).toNat = i.fields.a.toNat + i.fields.b.toNat * 64 + i.fields.c.toNat * 2048 := by
  rw [encodeWord, pack_toNat, Nat.mod_eq_of_lt h]

theorem encodeWord_loadConst_toNat (u : Config.UnrecWidth) (b : NarrowField) (c : WideField) :
    (encodeWord u (.loadConst b c)).toNat = 7 + b.toNat * 64 + c.toNat * 2048 :=
  encodeWord_toNat_of_fits c.isLt

theorem encodeWord_writeMem_toNat (u : Config.UnrecWidth) (b : NarrowField) (c : WideField) :
    (encodeWord u (.writeMem b c)).toNat = 51 + b.toNat * 64 + c.toNat * 2048 :=
  encodeWord_toNat_of_fits c.isLt

theorem encodeWord_readMem_toNat (u : Config.UnrecWidth) (b c : NarrowField) :
    (encodeWord u (.readMem b c)).toNat = 49 + b.toNat * 64 + c.toNat * 2048 := by
  have hc : (c.setWidth 13 : WideField).toNat = c.toNat := Machine.narrow_setWidth_toNat c
  have hfits : (c.setWidth 13 : WideField).toNat < 2 ^ 5 := by rw [hc]; exact c.isLt
  rw [encodeWord_toNat_of_fits (i := .readMem b c) hfits, ← hc]
  rfl

/-- The low 16 bits of a narrow word hold its three fields, whatever stands above them (R64, R70). -/
theorem narrow_fields_of_low_bits {w : Word} {k : Nat} {b c : NarrowField} (hk : k < 64)
    (h : w.toNat % 65536 = k + b.toNat * 64 + c.toNat * 2048) :
    w.toNat % 64 = k ∧ BitVec.ofNat 5 (w.toNat / 64) = b ∧ BitVec.ofNat 5 (w.toNat / 2048) = c := by
  have hb := b.isLt
  have hc := c.isLt
  refine ⟨by omega, BitVec.eq_of_toNat_eq ?_, BitVec.eq_of_toNat_eq ?_⟩
  · rw [BitVec.toNat_ofNat]; omega
  · rw [BitVec.toNat_ofNat]; omega

/-- A word whose low 16 bits are those of `READ_MEM b, c` is that instruction (R121). -/
theorem instrOfWord_eq_readMem (u : Config.UnrecWidth) {w : Word} {b c : NarrowField}
    (h : w.toNat % 65536 = 49 + b.toNat * 64 + c.toNat * 2048) : instrOfWord u w = .readMem b c := by
  obtain ⟨ha, hb, hc⟩ := narrow_fields_of_low_bits (by decide) h
  rw [Machine.opcodeSelectsInstructionAndFields u w b hb.symm, ha, hc]
  rfl

end Sys2Proof

namespace Sys2Proof.Machine

/-! ### Result and frame -/

/-- Settles O21: the instruction completes from every state (`exec_loadConst`), and its operand is its field for a
legal `XLEN` (`constOperand_of_legal`). -/
theorem loadConstWritesItsConstant : Obligations.LoadConstWritesItsConstant := by
  intro u b c s hx
  refine ⟨encodeWord_loadConst_toNat u b c, _, exec_loadConst b c s, ?_, wroteOnlyReg_set s b _⟩
  rw [advance_reg, reg_set_same]
  exact constOperand_of_legal hx c

/-- Settles O22: the address check decides between the register written with the cell's value and the recorded
fault, whose 13 bits hold the 5-bit address. -/
theorem readMemCopiesItsCellOrFaults : Obligations.ReadMemCopiesItsCellOrFaults := by
  intro u b c s
  refine ⟨encodeWord_readMem_toNat u b c, fun w hw => instrOfWord_eq_readMem u hw, fun hlt => ?_, fun hge => ?_⟩
  · exact ⟨_, exec_readMem_of_lt b c s hlt, reg_set_same s b _, wroteOnlyReg_set s b _⟩
  · exact ⟨_, exec_readMem_of_ge b c s hge, trappedOnAddress_raise s (Nat.lt_trans c.isLt (by decide))⟩

/-- Settles O23: the address check decides between the cell written with the register's value, which a canonical
memory gives back (`cell_write_same`), and the recorded fault. -/
theorem writeMemStoresItsRegisterOrFaults : Obligations.WriteMemStoresItsRegisterOrFaults := by
  intro u b c s hwf
  refine ⟨encodeWord_writeMem_toNat u b c, rfl, fun hlt => ?_, fun hge => ?_⟩
  · exact ⟨_, exec_writeMem_of_lt b c s hlt, cell_write_same s c.toNat _ hwf, wroteOnlyCell_write s c.toNat _⟩
  · exact ⟨_, exec_writeMem_of_ge b c s hge, trappedOnAddress_raise s c.isLt⟩

end Sys2Proof.Machine

/-!
SUPPORT. The statement about the arithmetic instruction (`43_arithmetic.md`): the word of `UNARY_MINUS` as a number,
and its result with the frame of its shape.
-/

namespace Sys2Proof

/-! ### The word of `UNARY_MINUS` -/

theorem encodeWord_unaryMinus_toNat (u : Config.UnrecWidth) (b c : NarrowField) :
    (encodeWord u (.unaryMinus b c)).toNat = 55 + b.toNat * 64 + c.toNat * 2048 := by
  have hc : (c.setWidth 13 : WideField).toNat = c.toNat := Machine.narrow_setWidth_toNat c
  calc (encodeWord u (.unaryMinus b c)).toNat
      = 55 + b.toNat * 64 + (c.setWidth 13 : WideField).toNat * 2048 :=
        encodeWord_toNat_of_fits (i := .unaryMinus b c) (hc.trans_lt c.isLt)
    _ = 55 + b.toNat * 64 + c.toNat * 2048 := by rw [hc]

/-- A word whose low 16 bits are those of `UNARY_MINUS b, c` is that instruction (R130). -/
theorem instrOfWord_eq_unaryMinus (u : Config.UnrecWidth) {w : Word} {b c : NarrowField}
    (h : w.toNat % 65536 = 55 + b.toNat * 64 + c.toNat * 2048) : instrOfWord u w = .unaryMinus b c := by
  obtain ⟨ha, hb, hc⟩ := narrow_fields_of_low_bits (by decide) h
  rw [Machine.opcodeSelectsInstructionAndFields u w b hb.symm, ha, hc]
  rfl

end Sys2Proof

namespace Sys2Proof.Machine

/-! ### Result and frame -/

/-- Strictly between the two bounds of `n` bits both `v` and `-v` are values, so negation is exact (R131). -/
theorem neg_of_not_most_negative {n : Nat} {v : Int} (hn : 0 < n) (hlow : -(2 ^ (n - 1) : Int) < v)
    (hhigh : v < 2 ^ (n - 1)) : neg n v = -v := by
  rw [neg, ← BitVec.ofInt_neg]
  exact BitVec.toInt_ofInt_eq_self hn (by omega) (by omega)

/-- Settles O24: the instruction completes from every state (`exec_unaryMinus`) with the negation of the source as it
was before the write, so `b` may be `c`; off the most negative value `neg_of_not_most_negative` says it is exact. -/
theorem unaryMinusNegatesItsRegister : Obligations.UnaryMinusNegatesItsRegister := by
  intro u b c s hx
  refine ⟨encodeWord_unaryMinus_toNat u b c, fun w hw => instrOfWord_eq_unaryMinus u hw, _, exec_unaryMinus b c s,
    wroteOnlyReg_set s b _, reg_set_same s b _, fun hlow hhigh => ?_⟩
  exact (reg_set_same s b _).trans (neg_of_not_most_negative (by omega) hlow hhigh)

end Sys2Proof.Machine

/-!
SUPPORT. The statements about the assembler of the host (`44_host_and_toolchain.md` part 2): the tokens of a line
`MNEMONIC B C`, numbers written and read back, and the fields of a log entry.
-/

namespace Sys2Proof.Machine

/-! ### Tokens -/

/-- A text without white space is one token. -/
theorem tokensOf_eq_singleton {t : Text} (ht : t ≠ []) (hsolid : ∀ ch ∈ t, ch.isWhitespace = false) :
    tokensOf t = [t] := by
  rw [tokensOf, pieces_eq_splitOnP, List.splitOnP_eq_singleton hsolid]
  simp [ht]

/-- A text without white space, up to a space, is the first token. -/
theorem tokensOf_append_space {t : Text} (ht : t ≠ []) (hsolid : ∀ ch ∈ t, ch.isWhitespace = false) (rest : Text) :
    tokensOf (t ++ ' ' :: rest) = t :: tokensOf rest := by
  rw [tokensOf, tokensOf, pieces_eq_splitOnP, pieces_eq_splitOnP,
    List.splitOnP_append_cons_of_forall_mem hsolid ' ' (by decide)]
  simp [ht]

/-! ### Numbers written and read back -/

theorem isDigit_of_mem_natText {n : Nat} {ch : Char} (h : ch ∈ natText n) : ch.isDigit = true :=
  Nat.isDigit_of_mem_toDigits (by decide) (by decide) h

theorem natText_ne_nil (n : Nat) : natText n ≠ [] := Nat.toDigits_ne_nil

theorem isWhitespace_eq_true_iff (ch : Char) :
    ch.isWhitespace = true ↔ ch = ' ' ∨ ch = '\t' ∨ ch = '\r' ∨ ch = '\n' := by
  simp [Char.isWhitespace, or_assoc]

theorem not_isWhitespace_of_isDigit {ch : Char} (h : ch.isDigit = true) : ch.isWhitespace = false := by
  by_contra hspace
  rw [Bool.not_eq_false, isWhitespace_eq_true_iff] at hspace
  obtain rfl | rfl | rfl | rfl := hspace <;> exact absurd h (by decide)

theorem intText_ne_nil (v : Int) : intText v ≠ [] := by
  unfold intText
  split
  · exact List.cons_ne_nil _ _
  · exact natText_ne_nil _

theorem not_isWhitespace_of_mem_intText {v : Int} {ch : Char} (h : ch ∈ intText v) : ch.isWhitespace = false := by
  unfold intText at h
  split at h
  · obtain rfl | h := List.mem_cons.1 h
    · rfl
    · exact not_isWhitespace_of_isDigit (isDigit_of_mem_natText h)
  · exact not_isWhitespace_of_isDigit (isDigit_of_mem_natText h)

theorem parseNat_natText (n : Nat) : parseNat (natText n) = some n := by
  have hdigits : (natText n).all Char.isDigit = true := List.all_eq_true.2 fun _ h => isDigit_of_mem_natText h
  rw [parseNat, if_pos ⟨natText_ne_nil n, hdigits⟩, natText, Nat.ofDigitChars_ten_toDigits]

/-- The first digit is no sign, so the whole text is read as digits. -/
theorem parseInt_natText (n : Nat) : parseInt (natText n) = some (n : Int) := by
  unfold parseInt
  split
  next ds hds => exact absurd (isDigit_of_mem_natText (hds ▸ List.mem_cons_self)) (by decide)
  next ds hds => exact absurd (isDigit_of_mem_natText (hds ▸ List.mem_cons_self)) (by decide)
  · rw [parseNat_natText]; rfl

/-- Reading an integer's text gives the integer (R77). -/
theorem parseInt_intText (v : Int) : parseInt (intText v) = some v := by
  unfold intText
  split
  next hneg =>
    have hv : -(v.natAbs : Int) = v := by omega
    rw [parseInt, parseNat_natText]
    exact congrArg some hv
  next hpos =>
    rw [parseInt_natText]
    exact congrArg some (by omega)

/-! ### The mnemonic of a line -/

theorem Mnemonic.text_ne_nil (m : Mnemonic) : m.text ≠ [] := by cases m <;> decide

theorem not_blank_nor_comment_of_mem_text {m : Mnemonic} {ch : Char} (h : ch ∈ m.text) :
    ch.isWhitespace = false ∧ ch ≠ '#' := by
  have hall : m.text.all (fun ch => !ch.isWhitespace && ch != '#') = true := by cases m <;> decide
  simpa using List.all_eq_true.1 hall ch h

/-- White space and `#` have no upper case, and stand in no mnemonic's spelling (R74, R75). -/
theorem not_blank_nor_comment_of_mem_token {m : Mnemonic} {token : Text} (h : token.map Char.toUpper = m.text)
    {ch : Char} (hch : ch ∈ token) : ch.isWhitespace = false ∧ ch ≠ '#' := by
  have hupper : ch.toUpper ∈ m.text := h ▸ List.mem_map_of_mem hch
  obtain ⟨hspace, hhash⟩ := not_blank_nor_comment_of_mem_text hupper
  constructor
  · by_contra hblank
    rw [Bool.not_eq_false, isWhitespace_eq_true_iff] at hblank
    obtain rfl | rfl | rfl | rfl := hblank <;> exact absurd hspace (by decide)
  · rintro rfl
    exact hhash (by decide)

theorem mnemonicOf_of_map_toUpper {m : Mnemonic} {token : Text} (h : token.map Char.toUpper = m.text) :
    mnemonicOf token = some m := by
  rw [mnemonicOf, h]
  cases m <;> decide

/-- A line that starts with a mnemonic is assembled from its tokens. -/
theorem assembleLine_of_mnemonic {m : Mnemonic} {token : Text} (h : token.map Char.toUpper = m.text) (rest : Text) :
    assembleLine (token ++ ' ' :: rest) = (assembleArgs m (tokensOf rest)).map some := by
  have hne : token ≠ [] := by
    rintro rfl
    exact m.text_ne_nil h.symm
  have htokens := tokensOf_append_space hne (fun _ hch => (not_blank_nor_comment_of_mem_token h hch).1) rest
  obtain ⟨ch, tail, rfl⟩ := List.exists_cons_of_ne_nil hne
  obtain ⟨hspace, hhash⟩ := not_blank_nor_comment_of_mem_token h (List.mem_cons_self (a := ch))
  rw [assembleLine_of_tokens, htokens, assembleTokens, mnemonicOf_of_map_toUpper h]
  · rw [htokens]
    exact List.cons_ne_nil _ _
  · rw [List.cons_append, List.dropWhile_cons_of_neg (by simp [hspace])]
    simpa using hhash

/-- The arguments of a line are the integers written in it. -/
theorem assembleArgs_intText (m : Mnemonic) (b c : Int) :
    assembleArgs m (tokensOf (intText b ++ ' ' :: intText c)) = .ok (logEntryOf m (assembleFields m b c)) := by
  rw [tokensOf_append_space (intText_ne_nil b) fun _ => not_isWhitespace_of_mem_intText,
    tokensOf_eq_singleton (intText_ne_nil c) fun _ => not_isWhitespace_of_mem_intText, assembleArgs,
    parseInt_intText, parseInt_intText]

/-- An instruction line, in any letter case, assembles to the entry of its mnemonic and integers (R147). -/
theorem assembleLine_instruction {m : Mnemonic} {token : Text} (h : token.map Char.toUpper = m.text) (b c : Int) :
    assembleLine (token ++ ' ' :: intText b ++ ' ' :: intText c) =
      .ok (some (logEntryOf m (assembleFields m b c))) := by
  rw [List.append_assoc, List.cons_append, assembleLine_of_mnemonic h, assembleArgs_intText]
  rfl

/-! ### The fields of a log entry -/

/-- The fields in an entry are the masked ones (R150). -/
theorem logEntryOf_assembleFields (m : Mnemonic) (b c : Int) :
    logEntryOf m (assembleFields m b c) =
      { operation := m
        a := BitVec.ofInt 6 m.opcode
        b := BitVec.ofInt 5 b
        c := keepLow (cw .bits13 (BitVec.ofInt 6 m.opcode)) (BitVec.ofInt 13 c)
        rawBytes := encode .bits13 m.opcode b c } := by
  rw [logEntryOf, assembleFields, encode, wordOf_bytesOf, unpack_pack]
  rfl

theorem recognized_opcode (m : Mnemonic) : recognized (BitVec.ofInt 6 m.opcode) = true := by
  cases m <;> decide

theorem ofInt_opcode_toNat (m : Mnemonic) : (BitVec.ofInt 6 m.opcode).toNat = m.opcode := by
  cases m <;> decide

/-- The span of `c` by the mnemonic (R80). -/
theorem two_pow_cw_opcode (m : Mnemonic) :
    (2 : Int) ^ cw .bits13 (BitVec.ofInt 6 m.opcode) = if m = .loadConst ∨ m = .writeMem then 8192 else 32 := by
  cases m <;> decide

/-- Settles O53: the three tokens of the line are read back (`assembleLine_instruction`), and the entry's fields are
the masked integers (`logEntryOf_assembleFields`). -/
theorem instructionLineAssemblesToItsEncoding : Obligations.InstructionLineAssemblesToItsEncoding := by
  intro m token b c htoken
  refine ⟨_, assembleLine_instruction htoken b c, ?_⟩
  rw [logEntryOf_assembleFields]
  refine ⟨rfl, rfl, ofInt_opcode_toNat m, ofInt_toNat 5 b, ?_⟩
  rw [keepLow_ofInt_toNat, two_pow_cw_opcode]

/-! ### The entries of a source -/

/-- Every entry of an assembled source is that of a mnemonic and two integers. -/
theorem eq_logEntryOf_of_mem_log {src : Text} {log : List LogEntry} {e : LogEntry} (hok : assemble src = .ok log)
    (he : e ∈ log) : ∃ m b c, e = logEntryOf m (assembleFields m b c) := by
  obtain ⟨k, hk⟩ := List.mem_iff_getElem?.1 he
  obtain ⟨line, -, hline⟩ := exists_line_of_getElem?_log ((assembleLines_ok_iff _ log).1 hok) hk
  obtain ⟨m, b, c, hentry⟩ := assembleLine_ok_of_instructionLine (isInstructionLine_of_some hline) hline
  exact ⟨m, b, c, Option.some.inj hentry⟩

/-- Settles O59: an entry is that of a mnemonic and two integers, its fields are those integers masked, and masking
first does not change the encoding (`encodeTruncatesOutOfRangeArguments`). -/
theorem assemblerEmitsOnlyRecognisedOpcodes : Obligations.AssemblerEmitsOnlyRecognisedOpcodes := by
  intro src log e hok he
  obtain ⟨m, b, c, rfl⟩ := eq_logEntryOf_of_mem_log hok he
  rw [logEntryOf_assembleFields]
  refine ⟨recognized_opcode m, ofInt_opcode_toNat m, ?_⟩
  rw [ofInt_opcode_toNat, ofInt_toNat, keepLow_ofInt_toNat]
  exact encodeTruncatesOutOfRangeArguments .bits13 m.opcode b c

end Sys2Proof.Machine

/-!
SUPPORT. The round trips of the codec (`30_encoding.md`, `40_codec.md`): between an instruction and its fields, between
a word and its instruction, and between a word and its assembly spelling.
-/

namespace Sys2Proof

/-! ### Instructions and their fields -/

/-- Cutting a `c` that fits its width leaves it as it is. -/
theorem keepLow_eq_self_of_lt {n : Nat} {c : WideField} (hn : n ≤ 13) (hc : c.toNat < 2 ^ n) : keepLow n c = c :=
  BitVec.eq_of_toNat_eq (by rw [keepLow_toNat n c hn, Nat.mod_eq_of_lt hc])

/-- A narrow `c` is carried whole in the field of port width. -/
theorem setWidth_setWidth_narrow (c : NarrowField) : (c.setWidth 13 : WideField).setWidth 5 = c :=
  BitVec.eq_of_toNat_eq (by rw [BitVec.toNat_setWidth, Machine.narrow_setWidth_toNat, Nat.mod_eq_of_lt c.isLt])

theorem classify_eq_unrecognized_iff (a : Opcode) : classify a = .unrecognized ↔ recognized a = false := by
  unfold classify recognized
  split_ifs with h7 h49 h51 h55
  · simp [h7]
  · simp [h49]
  · simp [h51]
  · simp [h55]
  · simp [h7, h49, h51, h55]

/-- The width of `c` for an unrecognised opcode is `CW_UNREC` (R69, R80). -/
theorem cw_of_unrecognized (u : Config.UnrecWidth) {a : Opcode} (ha : recognized a = false) : cw u a = u.bits := by
  simp only [recognized, Bool.or_eq_false_iff, beq_eq_false_iff_ne] at ha
  obtain ⟨⟨⟨h7, h49⟩, h51⟩, h55⟩ := ha
  simp [cw, h7, h49, h51, h55]

/-- What is checked of the no-operation (R68, R69). -/
theorem wellFormed_unrecognized_iff {u : Config.UnrecWidth} {a : Opcode} {b : NarrowField} {c : WideField} :
    (Instr.unrecognized a b c).wellFormed u = true ↔ recognized a = false ∧ c.toNat < 2 ^ u.bits := by
  simp [Instr.wellFormed]

/-- The `c` of a well-formed instruction fits the width of its opcode. -/
theorem fields_c_lt_of_wellFormed {u : Config.UnrecWidth} {i : Instr} (h : i.wellFormed u = true) :
    i.fields.c.toNat < 2 ^ cw u i.fields.a := by
  cases i with
  | loadConst b c => exact c.isLt
  | readMem b c => exact (Machine.narrow_setWidth_toNat c).trans_lt c.isLt
  | writeMem b c => exact c.isLt
  | unaryMinus b c => exact (Machine.narrow_setWidth_toNat c).trans_lt c.isLt
  | unrecognized a b c =>
    obtain ⟨ha, hc⟩ := wellFormed_unrecognized_iff.1 h
    exact (cw_of_unrecognized u ha).symm ▸ hc

/-- The fields of a well-formed instruction stand for it. -/
theorem toInstr_fields {u : Config.UnrecWidth} {i : Instr} (h : i.wellFormed u = true) : i.fields.toInstr = i := by
  cases i with
  | loadConst b c => rfl
  | readMem b c => exact congrArg (Instr.readMem b) (setWidth_setWidth_narrow c)
  | writeMem b c => rfl
  | unaryMinus b c => exact congrArg (Instr.unaryMinus b) (setWidth_setWidth_narrow c)
  | unrecognized a b c =>
    obtain ⟨ha, -⟩ := wellFormed_unrecognized_iff.1 h
    simp [Fields.toInstr, Instr.fields, (classify_eq_unrecognized_iff a).2 ha]

/-- A word packed from a well-formed instruction is that instruction. -/
theorem instrOfWord_encodeWord {u : Config.UnrecWidth} {i : Instr} (h : i.wellFormed u = true) :
    instrOfWord u (encodeWord u i) = i := by
  rw [instrOfWord, encodeWord, unpack_pack, keepLow_eq_self_of_lt (cw_le u _) (fields_c_lt_of_wellFormed h)]
  exact toInstr_fields h

/-- Settles O7: four bytes decode to the instruction of the word they were split from, which is
`instrOfWord_encodeWord`. -/
theorem decodeInvertsEncodeOnInstructions : Obligations.DecodeInvertsEncodeOnInstructions := by
  intro u i h
  have hlength : (encodeInstr u i).length ≤ 4 := Nat.le_refl 4
  rw [decodeInstr, decode_of_le hlength, encodeInstr, wordOf_bytesOf]
  exact congrArg Except.ok (instrOfWord_encodeWord h)

/-! ### The instruction of a word, encoded again -/

/-- The instruction of fields has those fields, `c` cut to its opcode's width. -/
theorem fields_toInstr {u : Config.UnrecWidth} {f : Fields} (h : keepLow (cw u f.a) f.c = f.c) :
    f.toInstr.fields = f := by
  obtain ⟨a, b, c⟩ := f
  unfold Fields.toInstr
  simp only [classify]
  split_ifs with h7 h49 h51 h55
  · subst h7; rfl
  · subst h49; exact congrArg (Fields.mk 49#6 b) h
  · subst h51; rfl
  · subst h55; exact congrArg (Fields.mk 55#6 b) h
  · rfl

theorem unpack_c_lt (u : Config.UnrecWidth) (w : Word) : (unpack u w).c.toNat < 2 ^ cw u (unpack u w).a := by
  rw [unpack_c]; exact Nat.mod_lt _ (Nat.two_pow_pos _)

/-- Encoding the instruction of a word packs the fields sliced from it. -/
theorem encodeWord_instrOfWord (u : Config.UnrecWidth) (w : Word) :
    encodeWord u (instrOfWord u w) = pack u (unpack u w) := by
  rw [encodeWord, instrOfWord, fields_toInstr (keepLow_eq_self_of_lt (cw_le u _) (unpack_c_lt u w))]

/-- Settles O8: packing what was sliced puts the three fields back at their places, and the field `c` ends at bit 24
or at bit 16. -/
theorem encodeAfterDecodeClearsUnusedBits : Obligations.EncodeAfterDecodeClearsUnusedBits := by
  intro u w
  rw [encodeWord_instrOfWord, pack_toNat, unpack_a, unpack_b, unpack_c, Machine.unpack_a_eq_ofNat, Nat.mod_mod]
  obtain h | h := cw_cases u (BitVec.ofNat 6 w.toNat)
  · rw [h, if_neg (by decide)]; omega
  · rw [h, if_pos rfl]; omega

/-! ### The bits that no field holds -/

/-- Words that agree up to the top of their `c` field have the same fields. -/
theorem unpack_eq_of_mod_eq {u : Config.UnrecWidth} {w v : Word}
    (h : w.toNat % (2048 * 2 ^ cw u (unpack u w).a) = v.toNat % (2048 * 2 ^ cw u (unpack u w).a)) :
    unpack u w = unpack u v := by
  have hlow : w.toNat % 2048 = v.toNat % 2048 := by
    rw [← Nat.mod_mul_right_mod w.toNat, h, Nat.mod_mul_right_mod]
  have hhigh : w.toNat / 2048 % 2 ^ cw u (unpack u w).a = v.toNat / 2048 % 2 ^ cw u (unpack u w).a := by
    rw [← Nat.mod_mul_right_div_self, h, Nat.mod_mul_right_div_self]
  have ha : (unpack u w).a = (unpack u v).a := BitVec.eq_of_toNat_eq (by rw [unpack_a, unpack_a]; omega)
  have hb : (unpack u w).b = (unpack u v).b := BitVec.eq_of_toNat_eq (by rw [unpack_b, unpack_b]; omega)
  have hc : (unpack u w).c = (unpack u v).c := BitVec.eq_of_toNat_eq (by rw [unpack_c, unpack_c, hhigh, ha])
  calc unpack u w = ⟨(unpack u w).a, (unpack u w).b, (unpack u w).c⟩ := rfl
    _ = unpack u v := by rw [ha, hb, hc]

/-- Every word stands for a well-formed instruction: a `c` that was sliced fits its opcode's width. -/
theorem wellFormed_instrOfWord (u : Config.UnrecWidth) (w : Word) : (instrOfWord u w).wellFormed u = true := by
  have hc := unpack_c_lt u w
  unfold instrOfWord Fields.toInstr
  cases hclass : classify (unpack u w).a with
  | loadConst => rfl
  | readMem => rfl
  | writeMem => rfl
  | unaryMinus => rfl
  | unrecognized =>
    have ha := (classify_eq_unrecognized_iff _).1 hclass
    rw [cw_of_unrecognized u ha] at hc
    exact wellFormed_unrecognized_iff.2 ⟨ha, hc⟩

/-- Settles O9: the field `c` ends at bit 24 at most, and at bit 16 for the two narrow opcodes, so in both cases the
words agree up to its top (`unpack_eq_of_mod_eq`). -/
theorem unusedBitsDoNotChangeTheInstruction : Obligations.UnusedBitsDoNotChangeTheInstruction := by
  intro u w v
  refine ⟨wellFormed_instrOfWord u w, fun h => ?_, fun h hnarrow => ?_⟩
  · refine congrArg Fields.toInstr (unpack_eq_of_mod_eq ?_)
    obtain hcw | hcw := cw_cases u (unpack u w).a
    · rw [hcw]; omega
    · rw [hcw]; exact h
  · refine congrArg Fields.toInstr (unpack_eq_of_mod_eq ?_)
    have hcw : cw u (unpack u w).a = 5 := by
      rw [Machine.cw_unpack, if_neg (by omega), if_pos hnarrow]
    rw [hcw]; exact h

/-- Settles O10: each row of the table is one chunk, decoded. -/
theorem wordsOfTheTestVectorsDecode : Obligations.WordsOfTheTestVectorsDecode := by
  unfold Obligations.WordsOfTheTestVectorsDecode
  decide

/-! ### Fields as integers -/

/-- Reducing the numbers of fields gives the fields back. -/
theorem reduce_toNat (f : Fields) : reduce f.a.toNat f.b.toNat f.c.toNat = f := by
  simp [reduce]

/-- For a recognised opcode the bytes do not depend on `CW_UNREC` (R80). -/
theorem encode_toNat_of_recognized (u v : Config.UnrecWidth) {f : Fields} (h : recognized f.a = true) :
    encode v f.a.toNat f.b.toNat f.c.toNat = bytesOf (pack u f) := by
  have hclass : classify f.a ≠ .unrecognized := by simp [classify_eq_unrecognized_iff, h]
  rw [encode, reduce_toNat, pack, Machine.cw_eq_of_recognized hclass v u, pack]

end Sys2Proof

namespace Sys2Proof.Machine

/-! ### A word's assembly spelling -/

theorem intText_natCast (n : Nat) : intText n = natText n := by
  rw [intText, if_neg (by omega), Int.natAbs_natCast]

theorem map_toUpper_text (m : Mnemonic) : m.text.map Char.toUpper = m.text := by
  cases m <;> decide

/-- The spelling `MNEMONIC B C` of an instruction's own fields assembles to the instruction's bytes. -/
theorem lineText_assembles (u : Config.UnrecWidth) {i : Instr} {m : Mnemonic} {b c : Nat}
    (ha : i.fields.a = BitVec.ofInt 6 m.opcode) (hb : i.fields.b.toNat = b) (hc : i.fields.c.toNat = c) :
    ∃ line e, some (lineText m b c) = some line ∧ assembleLine line = .ok (some e) ∧
      e.rawBytes = encodeInstr u i := by
  refine ⟨_, logEntryOf m (assembleFields m b c), rfl, ?_, ?_⟩
  · have hline := assembleLine_instruction (map_toUpper_text m) (b : Int) (c : Int)
    rwa [intText_natCast, intText_natCast] at hline
  · have hopcode : i.fields.a.toNat = m.opcode := by rw [ha, ofInt_opcode_toNat]
    have hrecognized : recognized i.fields.a = true := ha ▸ recognized_opcode m
    calc (logEntryOf m (assembleFields m b c)).rawBytes
        = encode .bits13 i.fields.a.toNat i.fields.b.toNat i.fields.c.toNat := by rw [hopcode, hb, hc]; rfl
      _ = encodeInstr u i := encode_toNat_of_recognized u .bits13 hrecognized

/-- The opcode of a word's instruction is the low six bits of the word. -/
theorem instrOfWord_fields_a (u : Config.UnrecWidth) (w : Word) :
    (instrOfWord u w).fields.a = BitVec.ofNat 6 w.toNat := by
  rw [instrOfWord, fields_toInstr (keepLow_eq_self_of_lt (cw_le u _) (unpack_c_lt u w)), unpack_a_eq_ofNat]

/-- Settles O60: the opcode decides which of the five instructions the word is (`instrOfWord_fields_a`); each of the
four with a mnemonic is spelled by its own fields, which assemble back (`lineText_assembles`). -/
theorem disassemblyAssemblesBack : Obligations.DisassemblyAssemblesBack := by
  intro u w
  have hwf := wellFormed_instrOfWord u w
  rw [← instrOfWord_fields_a u w, disassemble]
  generalize instrOfWord u w = i at hwf ⊢
  cases i with
  | loadConst b c => exact ⟨nofun, fun _ => lineText_assembles u rfl rfl rfl⟩
  | readMem b c => exact ⟨nofun, fun _ => lineText_assembles u rfl rfl (narrow_setWidth_toNat c)⟩
  | writeMem b c => exact ⟨nofun, fun _ => lineText_assembles u rfl rfl rfl⟩
  | unaryMinus b c => exact ⟨nofun, fun _ => lineText_assembles u rfl rfl (narrow_setWidth_toNat c)⟩
  | unrecognized a b c =>
    obtain ⟨ha, -⟩ := wellFormed_unrecognized_iff.1 hwf
    exact ⟨fun _ => rfl, fun h => absurd (ha.symm.trans h) Bool.false_ne_true⟩

end Sys2Proof.Machine

/-!
SUPPORT. The invariants that every step keeps, the fault that a step records, and what the parameters leave open
(`10_state.md`, `20_memory.md`, `60_exceptions.md`).
-/

namespace Sys2Proof.Machine

/-! ### The invariants -/

/-- Settles O31: only the shape that writes a cell changes the memory list; it keeps the list canonical (`wf_write`),
and lists nothing new but the cell whose check passed (`mem_of_mem_write`). -/
theorem stepKeepsMemoryCanonical : Obligations.StepKeepsMemoryCanonical := by
  intro s t hinv h
  obtain ⟨hwf, hbound⟩ := hinv
  obtain ⟨-, -, ⟨b, v, rfl, -⟩ | ⟨b, c, rfl, -, hc⟩ | ⟨rfl, -⟩ | ⟨addr, rfl, -⟩⟩ := step_cases h
  · exact ⟨hwf, hbound⟩
  · refine ⟨wf_write s.mem c.toNat (s.reg b) hwf, fun e he => ?_⟩
    obtain he | rfl := mem_of_mem_write s.mem c.toNat (s.reg b) e he
    · exact hbound e he
    · exact hc
  · exact ⟨hwf, hbound⟩
  · exact ⟨hwf, hbound⟩

/-- Settles O32: constants fit the range, cells and registers copied are in it, and negation is exact on it
(`step_keeps_smallValues`). -/
theorem stepKeepsValuesInRange : Obligations.StepKeepsValuesInRange :=
  fun _ _ hx hwf hs h => step_keeps_smallValues hx hwf hs h

/-- Settles O36: a fresh state has an empty memory list, zeros, `pc` 0 and no fault, and the reset state is one. -/
theorem invariantsHoldAfterReset : Obligations.InvariantsHoldAfterReset := by
  have hfresh (p : Config.Params) (stream : List Byte) :
      (State.fresh p stream).MemInv ∧ (State.fresh p stream).SmallValues ∧
        (State.fresh p stream).PcInv ∧ (State.fresh p stream).FaultInv :=
    ⟨⟨rfl, nofun⟩, fresh_smallValues p stream, ⟨rfl, Nat.zero_le _⟩, nofun⟩
  exact ⟨hfresh Config.defaultParams [], hfresh⟩

/-! ### The fault a step records -/

/-- A step that ends with a fault record took the fourth shape: a failed memory check on the address its instruction
names, which the record holds whole. -/
theorem step_fault {s t : State} {r : FaultRecord} (h : step s = .next t) (hr : t.fault = some r) :
    s.pc < s.stream.length ∧ t = { s with fault := some r } ∧ r.cause = .memory ∧ r.offset = s.pc ∧
      s.params.capacity ≤ r.index.toNat ∧
      ((∃ b c, s.nextInstr = .readMem b c ∧ r.index.toNat = c.toNat) ∨
       (∃ b c, s.nextInstr = .writeMem b c ∧ r.index.toNat = c.toNat)) := by
  obtain ⟨hf, hp, hshape⟩ := step_cases h
  have absurd_of_kept (hkept : t.fault = s.fault) : False := by
    rw [hr, hf] at hkept
    cases hkept
  obtain ⟨b, v, rfl, -⟩ | ⟨b, c, rfl, -⟩ | ⟨rfl, -⟩ | ⟨addr, rfl, hge, hlt, hi⟩ := hshape
  · exact (absurd_of_kept rfl).elim
  · exact (absurd_of_kept rfl).elim
  · exact (absurd_of_kept rfl).elim
  · obtain rfl := Option.some.inj hr
    have hindex : (BitVec.ofNat 13 addr).toNat = addr := (BitVec.toNat_ofNat addr 13).trans (Nat.mod_eq_of_lt hlt)
    exact ⟨hp, rfl, rfl, rfl, hge.trans_eq hindex.symm, by rw [hindex]; exact hi⟩

/-- Settles O17: `step_fault` gives the record and the state, and the ports read the record. -/
theorem faultIsPreciseAndNamesItsAddress : Obligations.FaultIsPreciseAndNamesItsAddress := by
  intro s t r h hr
  obtain ⟨-, ht, hcause, hoffset, hge, hi⟩ := step_fault h hr
  have hcode : t.causeCode = 2#2 := by rw [State.causeCode, hr]; simp only [hcause, FaultCause.code]
  have hport : t.faultOffset = s.pc := by rw [State.faultOffset, hr]; exact hoffset
  have hindex : t.faultIndex = r.index := by rw [State.faultIndex, hr]
  have hfaulted : t.faulted = true := by rw [State.faulted, hr]; rfl
  exact ⟨ht, hcause, hoffset, hge, hi, hcode, hport, hindex, hcode, hport, hindex, hfaulted⟩

/-- Settles O34: a record found after a step is the one the step wrote, at its own `pc` inside the stream. -/
theorem stepKeepsTheFaultRecordSound : Obligations.StepKeepsTheFaultRecordSound := by
  intro s t _ h r hr
  obtain ⟨hp, rfl, hcause, hoffset, hge, -⟩ := step_fault h hr
  exact ⟨hcause, hoffset, hp, hge⟩

/-! ### The reach of the address fields -/

/-- Settles O30: a field of `n` bits is below `2 ^ n`, so it passes the check against a `CAPACITY` of `2 ^ n`, and a
`WRITE_MEM` names no cell from 8192 on. -/
theorem reachOfTheAddressFields : Obligations.ReachOfTheAddressFields := by
  refine ⟨fun s b c hcap => ?_, fun s b c hcap => ?_, fun s t k h hk => ?_⟩
  · exact ⟨_, exec_readMem_of_lt b c s (Nat.lt_of_lt_of_le c.isLt hcap), rfl⟩
  · exact ⟨_, exec_writeMem_of_lt b c s (Nat.lt_of_lt_of_le c.isLt hcap), rfl⟩
  · by_contra hne
    obtain ⟨b, c, -, rfl⟩ := onlyWriteMemChangesACell s t k h hne
    exact absurd c.isLt (Nat.not_lt.2 hk)

/-! ### Parameters that no step can tell apart -/

/-- Settles O43: `XLEN` is one of the parameters of `step_withParams_of_legal`. -/
theorem widthOfValuesIsUnobservable : Obligations.WidthOfValuesIsUnobservable := by
  intro s t n hx hn hs h
  obtain ⟨-, hparams⟩ := stepKeepsStreamAndParameters s t h
  have hstep := step_withParams_of_legal (q := { s.params with xlen := n }) rfl hx hn hs
  have ht : t.withXlen n = t.withParams { s.params with xlen := n } := by rw [← hparams]; rfl
  rw [ht]
  exact hstep.trans (congrArg (resultWithParams _) h)

/-- Settles O44: with another `CW_UNREC` the constants, negations and `CAPACITY` are the same, which is all that
`step_withParams` asks. -/
theorem unrecognizedWidthIsUnobservable : Obligations.UnrecognizedWidthIsUnobservable := by
  intro s t u h
  obtain ⟨-, hparams⟩ := stepKeepsStreamAndParameters s t h
  have hstep := step_withParams s { s.params with cwUnrec := u } rfl (fun _ => rfl) fun _ => rfl
  have ht : t.withUnrec u = t.withParams { s.params with cwUnrec := u } := by rw [← hparams]; rfl
  rw [ht]
  exact hstep.trans (congrArg (resultWithParams _) h)

/-! ### Negation (`43_arithmetic.md`) -/

/-- Two's complement in `n` bits: the negation is the residue of `-v` where that is below half of `2 ^ n`, and
`2 ^ n` less from there on (R131). -/
theorem neg_eq_ite {n : Nat} (hn : 1 ≤ n) (v : Int) :
    neg n v = if -v % 2 ^ n < (2 ^ (n - 1) : Int) then -v % 2 ^ n else -v % 2 ^ n - 2 ^ n := by
  have hpow : (2 : Int) ^ n = 2 * 2 ^ (n - 1) := by rw [← pow_succ', Nat.sub_add_cancel hn]
  have hhalf : ((2 : Int) ^ n + 1) / 2 = 2 ^ (n - 1) := by omega
  rw [neg, ← BitVec.ofInt_neg, BitVec.toInt_ofInt, Int.bmod_def, Nat.cast_pow, Nat.cast_ofNat, hhalf]

/-- Settles O26: `neg_eq_ite` is the law, and half of `2 ^ n`, the residue of the most negative value's negation, is
taken back to that value. -/
theorem negationIsTwosComplement : Obligations.NegationIsTwosComplement := by
  intro n v hn _ _
  rw [Int.sub_emod_emod, Int.sub_emod_left, neg_eq_ite hn v]
  refine ⟨fun hlow => if_pos hlow, fun hhigh => if_neg (Int.not_lt.2 hhigh), ?_, fun hlegal hv => ?_⟩
  · have hpow : (2 : Int) ^ n = 2 * 2 ^ (n - 1) := by rw [← pow_succ', Nat.sub_add_cancel hn]
    have hpos : (0 : Int) < 2 ^ (n - 1) := by positivity
    have hresidue : (2 : Int) ^ (n - 1) % 2 ^ n = 2 ^ (n - 1) := Int.emod_eq_of_lt hpos.le (by omega)
    rw [neg_eq_ite hn, neg_neg, hresidue, if_neg (lt_irrefl _)]
    omega
  · rw [← neg_eq_ite hn v]
    exact neg_of_smallValue hlegal hv

/-- Settles O27: negation is exact on the range (`neg_of_smallValue`), and `-v` is in it again. -/
theorem negationIsAnInvolutionOnReachableValues : Obligations.NegationIsAnInvolutionOnReachableValues := by
  intro n v hn hv
  rw [neg_of_smallValue hn hv, neg_of_smallValue hn (smallValue_neg hv)]
  exact ⟨neg_neg v, neg_eq_zero⟩

/-- Settles O28: the first negation leaves `-x[src]` in `tmp`, also for `tmp = src`, and the second negates that,
which is in the range again. -/
theorem twoNegationsCopyARegister : Obligations.TwoNegationsCopyARegister := by
  intro s src tmp dst hx hv
  have hfirst := exec_unaryMinus tmp src s
  rw [neg_of_smallValue hx hv] at hfirst
  refine ⟨_, _, hfirst, exec_unaryMinus dst tmp _, ?_, fun hne => ?_⟩
  · rw [advance_reg, reg_set_same, advance_reg, reg_set_same]
    exact (neg_of_smallValue hx (smallValue_neg hv)).trans (neg_neg _)
  · rw [advance_reg, reg_set_other _ _ _ _ hne, advance_reg, reg_set_same]

end Sys2Proof.Machine

/-!
SUPPORT. Runs (`41_sequencer.md`): that they end, where they end, what they have executed, and a run that makes each
value of the range.
-/

namespace Sys2Proof.Machine

/-! ### The three conditions -/

theorem done_iff (s : State) : s.done = true ↔ s.fault = none ∧ s.stream.length ≤ s.pc := by
  simp [State.done]

theorem faulted_iff (s : State) : s.faulted = true ↔ s.fault ≠ none :=
  Option.isSome_iff_ne_none

theorem trunc_iff (s : State) : s.trunc = true ↔ s.stream.length % 4 ≠ 0 := decide_eq_true_iff

theorem running_eq_false_of_fault {s : State} (h : s.fault ≠ none) : s.running = false :=
  Bool.eq_false_iff.2 fun hr => h ((running_iff s).1 hr).1

theorem running_eq_false_of_end {s : State} (h : s.stream.length ≤ s.pc) : s.running = false :=
  Bool.eq_false_iff.2 fun hr => Nat.not_lt.2 h ((running_iff s).1 hr).2

/-- A recorded fault is `faulted`; without one, `pc` decides between `running` and `done` (R30). -/
theorem condition_cases (s : State) :
    (s.done = true ∧ s.faulted = false ∧ s.running = false) ∨
    (s.done = false ∧ s.faulted = true ∧ s.running = false) ∨
    (s.done = false ∧ s.faulted = false ∧ s.running = true) := by
  cases hf : s.fault with
  | some r => exact .inr (.inl (by simp [State.done, State.faulted, State.running, hf]))
  | none =>
    obtain hp | hp := Nat.lt_or_ge s.pc s.stream.length
    · exact .inr (.inr (by simp [State.done, State.faulted, State.running, hf, hp]))
    · exact .inl (by simp [State.done, State.faulted, State.running, hf, hp])

/-- Settles O46: `condition_cases`, with each condition's own equation; the status port reads them. -/
theorem exactlyOneConditionHolds : Obligations.ExactlyOneConditionHolds := fun s =>
  ⟨condition_cases s, done_iff s, faulted_iff s, running_iff s, trunc_iff s, rfl, rfl, rfl, rfl, rfl⟩

/-! ### Where no step is enabled -/

/-- Settles O12: `step` asks for a fault record first and then whether the machine is running. -/
theorem noStepUnlessRunning : Obligations.NoStepUnlessRunning := by
  refine ⟨fun s r hf => ?_, fun s hf hp => ?_⟩
  · rw [step, hf]
  · rw [step, hf, running_eq_false_of_end hp]
    rfl

/-- Only a running machine steps. -/
theorem running_of_step {s t : State} (h : step s = .next t) : s.running = true := by
  obtain ⟨hf, hp, -⟩ := step_next s t h
  exact (running_iff s).2 ⟨hf, hp⟩

theorem runFor_succ_of_step {s t : State} (h : step s = .next t) (n : Nat) : s.runFor (n + 1) = t.runFor n := by
  rw [State.runFor, h]

/-- A machine that is not running stays as it is. -/
theorem runFor_of_not_running {s : State} (h : s.running = false) (n : Nat) : s.runFor n = s := by
  cases n with
  | zero => rfl
  | succ n =>
    unfold State.runFor
    split
    next t ht => exact absurd (running_of_step ht) (by simp [h])
    · rfl
    · rfl

/-- Settles O41: a fault record leaves the machine not running, so neither a step nor a dump is there. -/
theorem faultIsTerminalUntilReset : Obligations.FaultIsTerminalUntilReset := by
  intro s r n start stop hf
  have hrunning : s.running = false := running_eq_false_of_fault (by simp [hf])
  have hdone : s.done = false := by simp [State.done, hf]
  refine ⟨runFor_of_not_running hrunning n, fun t ht => ?_, if_pos hdone, rfl⟩
  exact absurd (running_of_step ht) (by simp [hrunning])

/-! ### The end of a run -/

/-- A step that leaves no fault takes one off the steps left (R107). -/
theorem stepsLeft_of_step {s t : State} (h : step s = .next t) (hf : t.fault = none) :
    s.stepsLeft = t.stepsLeft + 1 := by
  obtain ⟨-, hp, -⟩ := step_next s t h
  obtain ⟨hstream, -⟩ := stepKeepsStreamAndParameters s t h
  obtain ⟨-, hpc, -⟩ | ⟨hfault, -⟩ := completedStepAdvancesPcByFour s t h
  · simp only [State.stepsLeft, hstream, hpc]; omega
  · exact absurd hf hfault

/-- As many steps as are left end the run. -/
theorem runFor_not_running {n : Nat} {s : State} (h : s.stepsLeft ≤ n) : (s.runFor n).running = false := by
  induction n generalizing s with
  | zero =>
    have hend : s.stream.length ≤ s.pc := by
      unfold State.stepsLeft at h; omega
    exact running_eq_false_of_end hend
  | succ n ih =>
    cases hrunning : s.running with
    | false => rw [runFor_of_not_running hrunning, hrunning]
    | true =>
      obtain ⟨-, hsteps⟩ := everyInstructionAnswersANextState
      obtain ⟨t, ht⟩ := hsteps s hrunning
      rw [runFor_succ_of_step ht]
      by_cases hf : t.fault = none
      · have hleft := stepsLeft_of_step ht hf
        exact ih (by omega)
      · have hstopped := running_eq_false_of_fault hf
        rw [runFor_of_not_running hstopped, hstopped]

/-- Settles O38: by `runFor_not_running`, and a machine that is not running is `done` or `faulted`. -/
theorem everyRunEnds : Obligations.EveryRunEnds := by
  intro s
  have hend : s.runToEnd.running = false := runFor_not_running (Nat.le_refl _)
  refine ⟨hend, ?_⟩
  obtain ⟨hdone, -⟩ | ⟨-, hfaulted, -⟩ | ⟨-, -, hrunning⟩ := condition_cases s.runToEnd
  · exact .inl hdone
  · exact .inr hfaulted
  · exact absurd hrunning (by simp [hend])

/-! ### Counting steps -/

theorem stepN_succ_of_step {s t : State} (h : step s = .next t) (n : Nat) :
    State.stepN (n + 1) s = State.stepN n t := by
  rw [State.stepN, h]

/-- Steps that were all there to take have a first one. -/
theorem exists_step_of_stepN_succ {n : Nat} {s t : State} (h : State.stepN (n + 1) s = .next t) :
    ∃ u, step s = .next u ∧ State.stepN n u = .next t := by
  rw [State.stepN] at h
  cases hstep : step s with
  | next u => rw [hstep] at h; exact ⟨u, rfl, h⟩
  | fault r => rw [hstep] at h; cases h
  | refused r => rw [hstep] at h; cases h

/-- Steps that end without a fault began without one: a faulted machine has no step to take. -/
theorem fault_eq_none_of_stepN {n : Nat} {s t : State} (h : State.stepN n s = .next t) (hf : t.fault = none) :
    s.fault = none := by
  cases n with
  | zero => cases h; exact hf
  | succ n =>
    obtain ⟨u, hstep, -⟩ := exists_step_of_stepN_succ h
    exact (step_next s u hstep).1

/-- Settles O39: by induction on `n`; the first step leaves no fault either, so it moves `pc` by 4. -/
theorem nStepsAdvancePcByFourN : Obligations.NStepsAdvancePcByFourN := by
  intro n s t h hf
  induction n generalizing s with
  | zero => cases h; rfl
  | succ n ih =>
    obtain ⟨u, hstep, hrest⟩ := exists_step_of_stepN_succ h
    obtain ⟨-, hpc, -⟩ | ⟨hfault, -⟩ := completedStepAdvancesPcByFour s u hstep
    · rw [ih u hrest, hpc]; omega
    · exact absurd (fault_eq_none_of_stepN hrest hf) hfault

/-- A run that ends without a fault began without one. -/
theorem fault_eq_none_of_runFor {n : Nat} {s : State} (h : (s.runFor n).fault = none) : s.fault = none := by
  by_contra hfault
  rw [runFor_of_not_running (running_eq_false_of_fault hfault)] at h
  exact hfault h

/-- A run that ends without a fault took every step that was left. -/
theorem stepN_eq_runFor {n : Nat} {s : State} (hn : n ≤ s.stepsLeft) (hf : (s.runFor n).fault = none) :
    State.stepN n s = .next (s.runFor n) := by
  induction n generalizing s with
  | zero => rfl
  | succ n ih =>
    have hp : s.pc < s.stream.length := by
      unfold State.stepsLeft at hn; omega
    have hs : s.fault = none := fault_eq_none_of_runFor hf
    obtain ⟨-, hsteps⟩ := everyInstructionAnswersANextState
    obtain ⟨t, ht⟩ := hsteps s ((running_iff s).2 ⟨hs, hp⟩)
    rw [runFor_succ_of_step ht] at hf ⊢
    rw [stepN_succ_of_step ht]
    have hcount := stepsLeft_of_step ht (fault_eq_none_of_runFor hf)
    exact ih (by omega) hf

/-- Settles O40: a fresh run has `ceil(L / 4)` steps left; ending without a fault it took them all
(`stepN_eq_runFor`), and each moved `pc` by 4. -/
theorem normalEndHasExecutedTheWholeStream : Obligations.NormalEndHasExecutedTheWholeStream := by
  intro p stream hsafe
  obtain ⟨hf, -⟩ := (done_iff _).1 hsafe
  have hleft : (State.fresh p stream).stepsLeft = (stream.length + 3) / 4 := rfl
  have hsteps := stepN_eq_runFor (Nat.le_refl _) hf
  rw [hleft] at hsteps
  exact ⟨(nStepsAdvancePcByFourN _ _ _ hsteps hf).trans (Nat.zero_add _), hsteps⟩

/-! ### A run for every value -/

theorem encodeInstr_length (u : Config.UnrecWidth) (i : Instr) : (encodeInstr u i).length = 4 := rfl

/-- A machine at the bytes of a well-formed instruction runs that instruction (R102). -/
theorem step_of_encodeInstr {s : State} {i : Instr} {rest : List Byte} (hf : s.fault = none)
    (hi : i.wellFormed s.params.cwUnrec = true)
    (hbytes : s.stream.drop s.pc = encodeInstr s.params.cwUnrec i ++ rest) : step s = exec i s := by
  have hp : s.pc < s.stream.length := by
    have hlength := congrArg List.length hbytes
    rw [List.length_drop, List.length_append, encodeInstr_length] at hlength
    omega
  have hfetch : s.fetch = encodeInstr s.params.cwUnrec i := by
    rw [State.fetch, hbytes]; rfl
  have hnext : s.nextInstr = i := by
    rw [State.nextInstr, hfetch, encodeInstr, wordOf_bytesOf, instrOfWord_encodeWord hi]
  rw [step_of_running s hf hp, hnext]

/-- The program `LOAD_CONST 0, c`, with more to follow. -/
def loadConstThen (c : WideField) (rest : List Byte) : List Byte := encodeInstr .bits13 (.loadConst 0#5 c) ++ rest

/-- The machine after the first instruction of `loadConstThen`. -/
def afterLoadConst (c : WideField) (rest : List Byte) : State :=
  { State.fresh Config.defaultParams (loadConstThen c rest) with
    regs := (Vector.replicate 32 0).set 0 (c.toNat : Int), pc := 4 }

theorem step_loadConstThen (c : WideField) (rest : List Byte) :
    step (State.fresh Config.defaultParams (loadConstThen c rest)) = .next (afterLoadConst c rest) := by
  rw [step_of_encodeInstr (i := .loadConst 0#5 c) rfl rfl rfl, exec_loadConst, fresh_params,
    constOperand_of_legal (by decide)]
  rfl

theorem afterLoadConst_reg_zero (c : WideField) (rest : List Byte) :
    (afterLoadConst c rest).reg 0#5 = (c.toNat : Int) :=
  reg_set_same (State.fresh Config.defaultParams (loadConstThen c rest)) 0#5 (c.toNat : Int)

theorem stepsLeft_loadConstThen (c : WideField) (rest : List Byte) :
    (State.fresh Config.defaultParams (loadConstThen c rest)).stepsLeft = (4 + rest.length + 3) / 4 := by
  rw [State.stepsLeft, fresh_stream, fresh_pc, loadConstThen, List.length_append, encodeInstr_length, Nat.sub_zero]

/-- One instruction makes each constant of `LOAD_CONST`. -/
theorem constant_reachable (c : WideField) :
    ∃ stream : List Byte, safeRun Config.defaultParams stream ∧
      (State.fresh Config.defaultParams stream).runToEnd.reg 0#5 = (c.toNat : Int) := by
  have hend : (State.fresh Config.defaultParams (loadConstThen c [])).runToEnd = afterLoadConst c [] := by
    rw [State.runToEnd, stepsLeft_loadConstThen]
    exact runFor_succ_of_step (step_loadConstThen c []) 0
  refine ⟨loadConstThen c [], ?_, ?_⟩
  · rw [safeRun, hend]; rfl
  · rw [hend]; exact afterLoadConst_reg_zero c []

/-- The bytes of `UNARY_MINUS 0, 0`, which negates in place. -/
def negateInPlace : List Byte := encodeInstr .bits13 (.unaryMinus 0#5 0#5)

theorem step_negateInPlace (c : WideField) :
    ∃ t, step (afterLoadConst c negateInPlace) = .next t ∧ t.done = true ∧ t.reg 0#5 = -(c.toNat : Int) := by
  have hstep : step (afterLoadConst c negateInPlace) = exec (.unaryMinus 0#5 0#5) (afterLoadConst c negateInPlace) :=
    step_of_encodeInstr (rest := []) rfl rfl rfl
  refine ⟨_, hstep.trans (exec_unaryMinus _ _ _), rfl, ?_⟩
  rw [advance_reg, reg_set_same, afterLoadConst_reg_zero]
  exact neg_of_smallValue (n := 32) (by decide) (smallValue_field c)

/-- A second instruction makes the constant's negation. -/
theorem negated_constant_reachable (c : WideField) :
    ∃ stream : List Byte, safeRun Config.defaultParams stream ∧
      (State.fresh Config.defaultParams stream).runToEnd.reg 0#5 = -(c.toNat : Int) := by
  obtain ⟨t, hstep, hdone, hreg⟩ := step_negateInPlace c
  have hend : (State.fresh Config.defaultParams (loadConstThen c negateInPlace)).runToEnd = t := by
    rw [State.runToEnd, stepsLeft_loadConstThen]
    exact (runFor_succ_of_step (step_loadConstThen c negateInPlace) 1).trans (runFor_succ_of_step hstep 0)
  refine ⟨loadConstThen c negateInPlace, ?_, ?_⟩
  · rw [safeRun, hend]; exact hdone
  · rw [hend]; exact hreg

/-- Settles O45: the magnitude of the value fits the 13-bit constant, and a negative value takes a second
instruction. -/
theorem everyValueOfTheRangeIsReachable : Obligations.EveryValueOfTheRangeIsReachable := by
  intro k hk
  obtain ⟨hlow, hhigh⟩ := hk
  have hc : (BitVec.ofNat 13 k.natAbs).toNat = k.natAbs := by
    rw [BitVec.toNat_ofNat]; exact Nat.mod_eq_of_lt (by omega)
  obtain hsign | hsign := Int.natAbs_eq k
  · have hreach := constant_reachable (BitVec.ofNat 13 k.natAbs)
    rwa [hc, ← hsign] at hreach
  · have hreach := negated_constant_reachable (BitVec.ofNat 13 k.natAbs)
    rwa [hc, ← hsign] at hreach

end Sys2Proof.Machine

/-!
SUPPORT. The host's ports and the assembler's errors (`44_host_and_toolchain.md`), and the width of `pc`
(`10_state.md` R27).
-/

namespace Sys2Proof.Machine

/-! ### The dump -/

theorem dump_of_not_done {s : State} (h : s.done = false) (start stop : Int) : s.dump start stop = .error .notDone :=
  if_pos h

theorem dump_of_empty {s : State} (h : s.done = true) {start stop : Int} (hempty : stop < start) :
    s.dump start stop = .ok [] := by
  simp [State.dump, h, hempty]

theorem dump_of_firstBad_none {s : State} (h : s.done = true) {start stop : Int} (hle : start ≤ stop)
    (hbad : firstBad s.params.capacity start stop = none) :
    s.dump start stop = .ok (s.rowsFrom start.toNat (stop - start + 1).toNat) := by
  simp [State.dump, h, Int.not_lt.2 hle, hbad]

theorem dump_of_firstBad_some {s : State} (h : s.done = true) {start stop k : Int} (hle : start ≤ stop)
    (hbad : firstBad s.params.capacity start stop = some k) :
    s.dump start stop = .error (.outOfRangeDump k) := by
  simp [State.dump, h, Int.not_lt.2 hle, hbad]

theorem rowsFrom_length (s : State) (start n : Nat) : (s.rowsFrom start n).length = n := by
  induction n generalizing start with
  | zero => rfl
  | succ n ih => exact congrArg (· + 1) (ih (start + 1))

/-- Row `j` is that of the cell `j` after the first (R141). -/
theorem rowsFrom_getElem? (s : State) {start n j : Nat} (h : j < n) :
    (s.rowsFrom start n)[j]? = some (start + j, s.cell (start + j)) := by
  induction n generalizing start j with
  | zero => exact absurd h (Nat.not_lt_zero j)
  | succ n ih =>
    cases j with
    | zero => rfl
    | succ j =>
      rw [State.rowsFrom, List.getElem?_cons_succ, ih (Nat.lt_of_succ_lt_succ h), Nat.succ_add_eq_add_succ]

/-- A range inside memory has no bad address. -/
theorem firstBad_eq_none {capacity : Nat} {start stop : Int} (h0 : 0 ≤ start) (hle : start ≤ stop)
    (hstop : stop < capacity) : firstBad capacity start stop = none := by
  rw [firstBad, if_neg (by omega), if_neg (by omega)]

/-- A range with an address outside memory has a first one: its start, or the first address above memory (R142). -/
theorem exists_firstBad {capacity : Nat} {start stop : Int} (hle : start ≤ stop)
    (hout : start < 0 ∨ (capacity : Int) ≤ stop) :
    ∃ k, firstBad capacity start stop = some k ∧ start ≤ k ∧ k ≤ stop ∧ (k < 0 ∨ (capacity : Int) ≤ k) ∧
      ∀ j, start ≤ j → j < k → 0 ≤ j ∧ j < (capacity : Int) := by
  by_cases hstart : start < 0 ∨ (capacity : Int) ≤ start
  · exact ⟨start, if_pos hstart, Int.le_refl _, hle, hstart, fun j hj hjk => by omega⟩
  · have hstop : (capacity : Int) ≤ stop := by omega
    refine ⟨capacity, ?_, by omega, hstop, .inr (Int.le_refl _), fun j hj hjk => ⟨by omega, hjk⟩⟩
    rw [firstBad, if_neg hstart, if_pos hstop]

/-- Settles O47: no address of the range is bad, so the rows are those of `rowsFrom`. -/
theorem dumpGivesOneRowPerAddress : Obligations.DumpGivesOneRowPerAddress := by
  intro s start stop hdone hle hstop
  have hrows : s.dump start stop = .ok (s.rowsFrom start (stop - start + 1)) := by
    rw [dump_of_firstBad_none hdone (by omega) (firstBad_eq_none (by omega) (by omega) (by omega))]
    congr 2
    omega
  refine ⟨_, hrows, rowsFrom_length s _ _, fun j hj => ?_⟩
  rw [rowsFrom_length] at hj
  exact rowsFrom_getElem? s hj

/-- Settles O48: the three answers of the dump, each by its own equation, with the first bad address of
`exists_firstBad`; the session only passes the answer on. -/
theorem dumpRefusesWholeRequests : Obligations.DumpRefusesWholeRequests := by
  intro s start stop
  refine ⟨?_, fun h => dump_of_not_done h start stop, fun h => dump_of_empty h, fun h hle hout => ?_⟩
  · rintro h rfl
    rfl
  · obtain ⟨k, hbad, hrange⟩ := exists_firstBad hle hout
    exact ⟨k, dump_of_firstBad_some h hle hbad, rfl, hrange⟩

/-! ### Register inspection -/

theorem inspect_of_not_running {s : State} (h : s.running = false) (i : NarrowField) :
    s.inspect i = .ok (s.reg i) := by
  simp [State.inspect, h]

theorem inspect_of_running {s : State} (h : s.running = true) (i : NarrowField) :
    s.inspect i = .error .notEnded := if_pos h

theorem handle_inspect (h : Session) (i : NarrowField) :
    h.handle (.inspect i) = (h.machine.inspect i).map fun v => (h, .value v) := rfl

/-- Settles O49: a machine that is `done` or `faulted` is not `running` (`condition_cases`). -/
theorem inspectionReadsARegisterAfterTheRun : Obligations.InspectionReadsARegisterAfterTheRun := by
  intro h i
  refine ⟨fun hended => ?_, fun hrunning => ?_⟩
  · have hrunning : h.machine.running = false := by
      obtain ⟨-, -, hr⟩ | ⟨-, -, hr⟩ | ⟨hdone, hfaulted, -⟩ := condition_cases h.machine
      · exact hr
      · exact hr
      · simp [hdone, hfaulted] at hended
    rw [handle_inspect, inspect_of_not_running hrunning]
    exact ⟨rfl, rfl⟩
  · rw [handle_inspect, inspect_of_running hrunning]
    exact ⟨rfl, rfl⟩

/-! ### The width of `pc` -/

/-- Settles O50: `pc` is at most the length rounded up to whole chunks, which is below `L + 4`. -/
theorem acceptedStreamKeepsPcWithinItsWidth : Obligations.AcceptedStreamKeepsPcWithinItsWidth := by
  intro s w hw hfits hinv
  obtain ⟨-, hbound⟩ := hinv
  have hlength : s.stream.length + 3 < 2 ^ w := by
    rw [Config.Params.streamFits, hw] at hfits
    exact of_decide_eq_true hfits
  omega

/-! ### Lines that fail -/

/-- A known mnemonic passes its arguments on. -/
theorem assembleTokens_of_mnemonic {token : Text} {m : Mnemonic} (h : mnemonicOf token = some m) (args : List Text) :
    assembleTokens (token :: args) = (assembleArgs m args).map some := by
  rw [assembleTokens, h]

theorem assembleArgs_of_length_ne_two {args : List Text} (h : args.length ≠ 2) (m : Mnemonic) :
    assembleArgs m args = .error (.argumentCount m 2) := by
  unfold assembleArgs
  split
  · exact absurd rfl h
  · rfl

/-- Settles O55: such a line is assembled from its tokens, and each clause fixes which check fails first. -/
theorem badLinesFailWithTheirErrorClass : Obligations.BadLinesFailWithTheirErrorClass := by
  intro line token args htokens hcomment
  rw [assembleLine_of_tokens line (by simp [htokens]) hcomment, htokens]
  refine ⟨fun hm => ?_, fun m hm hcount => ?_, fun m tb tc hm hargs hb => ?_, fun m tb tc b hm hargs hb hc => ?_⟩
  · rw [assembleTokens, hm]
  · rw [assembleTokens_of_mnemonic hm, assembleArgs_of_length_ne_two hcount]; rfl
  · rw [assembleTokens_of_mnemonic hm, hargs, assembleArgs, hb]; rfl
  · rw [assembleTokens_of_mnemonic hm, hargs, assembleArgs, hb, hc]; rfl

/-- The lines before a failing one assemble, and it ends the pass with its error (R148). -/
theorem assembleLines_append_error {before : List Text} {log : List LogEntry} {bad : Text} {e : AsmErrorClass}
    (hbefore : assembleLines before = .ok log) (hbad : assembleLine bad = .error e) (after : List Text) :
    assembleLines (before ++ bad :: after) = .error { kind := e, line := bad } := by
  induction before generalizing log with
  | nil => rw [List.nil_append, assembleLines, hbad]
  | cons line rest ih =>
    rw [List.cons_append]
    cases hi : isInstructionLine line with
    | false =>
      rw [assembleLines_cons_of_not_instructionLine hi] at hbefore ⊢
      exact ih hbefore
    | true =>
      obtain ⟨entry, log', -, hline, hrest⟩ := (assembleLines_cons_ok_iff hi rest log).1 hbefore
      rw [assembleLines, hline, ih hrest]

/-- Settles O56: by `assembleLines_append_error`; an error of the pass is that of the files. -/
theorem firstBadLineAbortsTheAssembly : Obligations.FirstBadLineAbortsTheAssembly := by
  intro eol src bad before after log e hlines hbefore hbad
  have habort : assemble src = .error { kind := e, line := bad } := by
    rw [assemble, hlines]
    exact assembleLines_append_error hbefore hbad after
  refine ⟨habort, ?_⟩
  rw [assembleFiles, habort]
  rfl

end Sys2Proof.Machine
